-- ==== Sys2Proof/Word.lean ====
section
/-! DEFINITION. The word types of MD5CORE (R4, R6): every number of the machine is unsigned. -/

namespace Sys2Proof

/-- `u32` of R6: digest, working registers, message words, bus data. -/
abbrev Word := BitVec 32

/-- `u8` of R6. -/
abbrev Byte := BitVec 8

/-- A set of four 32-bit registers in the order the spec lists them: `A, B, C, D` (R22),
`AA, BB, CC, DD` (R23), `SAA..SDD` (R24), `FA..FD` (R25), `DIGEST0..3` (R33). -/
structure Quad where
  a : Word
  b : Word
  c : Word
  d : Word
  deriving DecidableEq, Repr

/-- Four registers that all hold 0. -/
def Quad.zero : Quad := ⟨0, 0, 0, 0⟩

end Sys2Proof
end

