-- ==== Sys2Proof/Config.lean ====
section
/-! DEFINITION. What an implementation of MD5CORE fixes (R5), and the free values the spec leaves open. -/

namespace Sys2Proof

/-- Where the quarter-round snapshot is taken (R5, R123, conflict C1). -/
inductive SnapPhase where
  | afterFirst
  | beforeFirst
  | afterLast
  deriving DecidableEq, Repr

/-- How the upper 32 bits of the bit-length field are formed (R5, R86, conflict C4). -/
inductive LenHiMode where
  | lenExact
  | lenZero
  deriving DecidableEq, Repr

/-- The parameters the model takes as arguments (R5). `maxMsgBytes` is `MAX_MSG_BYTES`, a natural number with
`0 <= MAX_MSG_BYTES <= 2^31`. -/
structure Params where
  maxMsgBytes : Fin 2147483649
  snapPhase   : SnapPhase
  lenHiMode   : LenHiMode
  deriving DecidableEq, Repr

/-- `MAX_MSG_BYTES` of this hardware: OPEN (R5, D7), so a constant with no value (log 9). -/
opaque Config.maxMsgBytes : Fin 2147483649

/-- The parameters of this hardware: `MAX_MSG_BYTES` open, `SNAP_PHASE = AFTER_FIRST`, `LEN_HI_MODE = EXACT` (R5). -/
def Config.params : Params := ⟨Config.maxMsgBytes, .afterFirst, .lenExact⟩

/-- FREE VALUE (93_implementation_defined.md U3): the `n`-th draw of a `u8`, read from a byte that holds no value
(log 2, log 3). Nothing constrains it. -/
opaque Config.drawByte : Nat → Byte

end Sys2Proof
end

