-- ==== Sys2Proof/Syntax.lean ====
section
/-! DEFINITION. The instructions of MD5CORE: one constructor per row of spec/opcode_table.json (R64, R71), and the
encoded forms they are decoded from (R63, R70). -/

namespace Sys2Proof

/-- The micro-operations of the core (R64) and the transactions of the host bus (R71).
`wdata` is the value a write carries (R70); a read ignores it, so a read carries none. -/
inductive Instr where
  /-- R134 -/
  | halt
  /-- R81 -/
  | pad
  /-- R93 -/
  | entry
  /-- R99, `j = 0..15` -/
  | stepF (j : BitVec 6)
  /-- R100, `j = 16..31` -/
  | stepG (j : BitVec 6)
  /-- R101, `j = 32..47` -/
  | stepH (j : BitVec 6)
  /-- R102, `j = 48..63` -/
  | stepI (j : BitVec 6)
  /-- R103 -/
  | fold
  /-- R133 -/
  | final
  /-- R69: a reserved micro-operation word -/
  | reservedUop (word : BitVec 10)
  /-- R145 -/
  | rdCtrl
  /-- R142 -/
  | wrCtrl (wdata : Word)
  /-- R146 -/
  | rdStatus
  /-- R147 -/
  | wrStatus (wdata : Word)
  /-- R148 -/
  | rdMsgLen
  /-- R149 -/
  | wrMsgLen (wdata : Word)
  /-- R150 -/
  | rdCap
  /-- R151 -/
  | wrCap (wdata : Word)
  /-- R152, `k = wa[1:0]` -/
  | rdDigest (k : BitVec 2)
  /-- R153, `k = wa[1:0]` -/
  | wrDigest (k : BitVec 2) (wdata : Word)
  /-- R154, `w = wa[28:0]` -/
  | rdMsg (w : BitVec 29)
  /-- R155, `w = wa[28:0]` -/
  | wrMsg (w : BitVec 29) (wdata : Word)
  /-- R156 -/
  | rdRsvd (wa : BitVec 30)
  /-- R157 -/
  | wrRsvd (wa : BitVec 30) (wdata : Word)
  deriving DecidableEq, Repr

/-- What a step takes up to decode: the sequencer's 10-bit word (R63), or a host transaction, a 31-bit header and a
32-bit data word (R70). -/
inductive Fetched where
  | uop (word : BitVec 10)
  | host (header : BitVec 31) (wdata : Word)
  deriving DecidableEq, Repr

end Sys2Proof
end

