-- ==== Sys2Proof/Machine/State.lean ====
section
/-! DEFINITION. The state of MD5CORE (R16) as plain data, and the state after reset (R180). -/

namespace Sys2Proof.Machine

/-- The observer's record type (R120). Records hold numbers; their strings are renderings (Machine/Render.lean). -/
inductive ObsRecord where
  | padded (nb : Nat) (blocks : List (List Byte))
  | round (round : Nat) (a b c d : Word)
  | final (working saved : Quad) (digest : List Byte)
  deriving DecidableEq, Repr

/-- The reasons the machine stops. -/
inductive Fault where
  /-- R166: `ILLEGAL_UOP`, with the reserved `uop` word. Recorded by the micro-operation step of a reserved word
  (`execReservedUop`), and answered by `step` whenever the core has the turn in a state that records it. Safe: the
  spec gives the faulted state no further core step. -/
  | illegalUop (word : BitVec 10)
  deriving DecidableEq, Repr

/-- The reasons an instruction has no meaning. -/
inductive Refusal where
  /-- An arm of `exec` that is not modelled. No arm raises it: every row of the opcode table has its meaning. Safe. -/
  | notModelled (mnemonic : String)
  deriving DecidableEq, Repr

/-- One turn of the interleaving (R55): an atomic core step, an atomic host transaction (R70, R141), or a reset
(R180). -/
inductive Turn where
  | core
  | host (header : BitVec 31) (wdata : Word)
  | reset
  deriving DecidableEq, Repr

/-- A byte memory: (offset, byte) pairs, offsets strictly rising. An offset that is not listed holds no value
(R47, R48; log 2). -/
abbrev Memory := List Host.Cell

/-- The complete state (R16), the parameters (R5), the model fault record (R166), and the model's own `draws`,
`pending` and `rsp`. -/
structure State where
  /-- R17: the sequencer's micro-operation register, this hardware's program counter -/
  uop     : BitVec 10
  /-- R18 `BLK` -/
  blk     : Nat
  /-- R19 `NB` -/
  nb      : Nat
  /-- R20 `SIZE` -/
  size    : Word
  /-- R21 `OBS` -/
  obs     : Bool
  /-- R22 `A, B, C, D` -/
  dig     : Quad
  /-- R23 `AA, BB, CC, DD` -/
  work    : Quad
  /-- R24 `SAA, SBB, SCC, SDD` -/
  saved   : Quad
  /-- R25 `FA, FB, FC, FD` -/
  fin     : Quad
  /-- R29 `CTRL.OBS_EN` -/
  obsEn   : Bool
  /-- R30 `STATUS.DONE` -/
  done    : Bool
  /-- R30 `STATUS.LEN_ERR` -/
  lenErr  : Bool
  /-- R31 `MSG_LEN` -/
  msgLen  : Word
  /-- R33 `DIGEST0..3` -/
  digest  : Quad
  /-- R47 the message window, by byte offset -/
  msg     : Memory
  /-- R48 the padded buffer, by byte offset -/
  pbuf    : Memory
  /-- R34 the observer channel, oldest record first -/
  obsch   : List ObsRecord
  /-- R166 the model fault record -/
  faultRec : Option Fault
  /-- R5 the parameters of this machine; no instruction writes them. `CAP` (R32) reads one of them -/
  params  : Params
  /-- The model's own: the number of free values drawn so far (log 3) -/
  draws   : Nat
  /-- The model's own: the rest of the interleaving, next turn first; when it is empty every turn is the core's
  (log 4) -/
  pending : List Turn
  /-- The model's own: the values reads have returned to the host, oldest first (log 6) -/
  rsp     : List Word
  deriving DecidableEq, Repr

/-- R180. The elements the table gives "no value" hold the values log 1 names; the memories list nothing. -/
def State.reset : State where
  uop := 0x000
  blk := 0
  nb := 0
  size := 0
  obs := false
  dig := Quad.zero
  work := Quad.zero
  saved := Quad.zero
  fin := Quad.zero
  obsEn := false
  done := false
  lenErr := false
  msgLen := 0
  digest := Quad.zero
  msg := []
  pbuf := []
  obsch := []
  faultRec := none
  params := Config.params
  draws := 0
  pending := []
  rsp := []

end Sys2Proof.Machine
end

