-- ==== Sys2Proof/Machine/Ops.lean ====
section
/-! DEFINITION. The operations every meaning is made of: byte order, byte memories, the named updates of the state,
emitting an observer record, and raising the model fault (the only exception of this hardware, R163, R166). -/

namespace Sys2Proof

/-! ### Byte order (R8, R49) -/

/-- R8 `LE32(b0, b1, b2, b3)`. -/
def le32 (b0 b1 b2 b3 : Byte) : Word := b3 ++ b2 ++ b1 ++ b0

/-- R8 `bytesLE(w)`. -/
def bytesLE (w : Word) : List Byte :=
  [w.extractLsb' 0 8, w.extractLsb' 8 8, w.extractLsb' 16 8, w.extractLsb' 24 8]

/-- `bytesLE(a) ++ bytesLE(b) ++ bytesLE(c) ++ bytesLE(d)` (R133). -/
def Quad.bytes (q : Quad) : List Byte := bytesLE q.a ++ bytesLE q.b ++ bytesLE q.c ++ bytesLE q.d

/-- Register `k` of four. -/
def Quad.word (q : Quad) (k : BitVec 2) : Word :=
  if k = 0 then q.a else if k = 1 then q.b else if k = 2 then q.c else q.d

/-- R7 `add32`, register by register (R103). -/
def Quad.add (p q : Quad) : Quad := ⟨p.a + q.a, p.b + q.b, p.c + q.c, p.d + q.d⟩

/-- R7 `sub32`, register by register (R124). -/
def Quad.sub (p q : Quad) : Quad := ⟨p.a - q.a, p.b - q.b, p.c - q.c, p.d - q.d⟩

end Sys2Proof

namespace Sys2Proof.Machine

/-! ### Byte memories (R10, R46) -/

/-- The byte an offset holds; `none` where it holds no value. -/
def Memory.read? : Memory → Nat → Option Byte
  | [], _ => none
  | (k, v) :: m, a => if k = a then some v else Memory.read? m a

/-- `MemWrite(_, a, 1, v)` (R10). -/
def Memory.write : Memory → Nat → Byte → Memory
  | [], a, v => [(a, v)]
  | (k, x) :: m, a, v =>
    if a < k then (a, v) :: (k, x) :: m
    else if a = k then (a, v) :: m
    else (k, x) :: Memory.write m a v

/-- Consecutive bytes written from offset `a` on. -/
def Memory.writeBytes (m : Memory) : Nat → List Byte → Memory
  | _, [] => m
  | a, v :: vs => (Memory.writeBytes m (a + 1) vs).write a v

/-- The canonical form: offsets strictly rising. -/
def Memory.wf : Memory → Bool
  | [] => true
  | [_] => true
  | p :: q :: m => decide (p.1 < q.1) && Memory.wf (q :: m)

/-- `MemRead(_, a, 1)` (R10), with the number of draws before and after it: a byte that holds no value reads as a
fresh draw (R47, U3; log 2). -/
def readByte (m : Memory) (draws a : Nat) : Byte × Nat :=
  match m.read? a with
  | some v => (v, draws)
  | none => (Config.drawByte draws, draws + 1)

/-- `n` consecutive bytes from offset `a` on, in rising order. -/
def readBytes (m : Memory) : (draws a n : Nat) → List Byte × Nat
  | draws, _, 0 => ([], draws)
  | draws, a, n + 1 =>
    let first := readByte m draws a
    let rest := readBytes m first.2 (a + 1) n
    (first.1 :: rest.1, rest.2)

/-- `MemRead(_, a, 4)` (R10): a little-endian word. -/
def readWord (m : Memory) (draws a : Nat) : Word × Nat :=
  let b0 := readByte m draws a
  let b1 := readByte m b0.2 (a + 1)
  let b2 := readByte m b1.2 (a + 2)
  let b3 := readByte m b2.2 (a + 3)
  (le32 b0.1 b1.1 b2.1 b3.1, b3.2)

/-! ### Capacities derived from the parameters (R5) -/

/-- R5 `MSG_WORDS = ceil(MAX_MSG_BYTES / 4)`. -/
def msgWords (p : Params) : Nat := (p.maxMsgBytes.val + 3) / 4

/-- R5 `NB_MAX = floor((MAX_MSG_BYTES + 8) / 64) + 1`. -/
def nbMax (p : Params) : Nat := (p.maxMsgBytes.val + 8) / 64 + 1

/-! ### Micro-operation words the sequencer writes (R64, R68) -/

def uopHalt : BitVec 10 := 0x000
def uopPad : BitVec 10 := 0x040
def uopEntry : BitVec 10 := 0x080
def uopStep0 : BitVec 10 := 0x0C0
def uopFold : BitVec 10 := 0x100
def uopFinal : BitVec 10 := 0x140

/-! ### Named updates of the state -/

/-- R11 `uop <- u`. -/
def State.setUop (s : State) (u : BitVec 10) : State := { s with uop := u }

/-- R70: a read returns `rdata` to the host (log 6). -/
def State.respond (s : State) (rdata : Word) : State := { s with rsp := s.rsp ++ [rdata] }

/-- R121 `emit(rec)`. -/
def State.emit (s : State) (r : ObsRecord) : State :=
  { s with obsch := if s.obs then s.obsch ++ [r] else s.obsch }

/-- R11 and R166 `raise Fault(reason)`: the one exception entry of the model, a step to the faulted state. Nothing is
saved and no handler is entered (R163), and there is no return from it (R170). -/
def State.raiseFault (s : State) (f : Fault) : State := { s with faultRec := some f }

/-- R180: the state after a reset that comes during a run. The parameters are the machine's; the rest of the
interleaving, the draws and what the host has read are not the machine's state (log 5). -/
def State.afterReset (s : State) : State :=
  { State.reset with params := s.params, draws := s.draws, pending := s.pending, rsp := s.rsp }

end Sys2Proof.Machine
end

