-- ==== Sys2Proof/Machine/Operands.lean ====
section
/-! DEFINITION. Operand assembly for `STEP` from `j` and the state (R65), and the datapath functions of the compressor
(R94..R97). -/

namespace Sys2Proof.Machine

/-- R94 `F(x,y,z) = (x & y) | (~x & z)`. -/
def fnF (x y z : Word) : Word := (x &&& y) ||| (~~~x &&& z)

/-- R94 `G(x,y,z) = (x & z) | (y & ~z)`. -/
def fnG (x y z : Word) : Word := (x &&& z) ||| (y &&& ~~~z)

/-- R94 `H(x,y,z) = x ^ y ^ z`. -/
def fnH (x y z : Word) : Word := x ^^^ y ^^^ z

/-- R94 `I(x,y,z) = y ^ (x | ~z)`. -/
def fnI (x y z : Word) : Word := y ^^^ (x ||| ~~~z)

/-- R97 `rotl(x, n) = (x << n) | (x >> (32 - n))`, with the shifts of R7. -/
def rotl (x : Word) (n : Nat) : Word := (x <<< n) ||| (x >>> (32 - n))

/-- R63 `j[5:4]`, the round. -/
def roundOf (j : BitVec 6) : Nat := j.toNat / 16

/-- R63 `j[3:0]`, the step within the round. -/
def stepInRound (j : BitVec 6) : Nat := j.toNat % 16

/-- R95, the message index `g(j)`. -/
def msgIndex (j : BitVec 6) : Nat :=
  if roundOf j = 0 then j.toNat
  else if roundOf j = 1 then (5 * j.toNat + 1) % 16
  else if roundOf j = 2 then (3 * j.toNat + 5) % 16
  else 7 * j.toNat % 16

/-- R96, the byte offset in `PBUF` of the word `m[g(j)]` of block `blk`. -/
def msgWordOffset (blk : Nat) (j : BitVec 6) : Nat := 64 * blk + 4 * msgIndex j

/-- R96 `MsgWord(j)`, with the number of draws after the read. -/
def msgWord (s : State) (j : BitVec 6) : Word × Nat :=
  readWord s.pbuf s.draws (msgWordOffset s.blk j)

/-- R154, R155: the byte offset in `MSG` of word `w` (R47). -/
def msgByteOffset (w : BitVec 29) : Nat := 4 * w.toNat

end Sys2Proof.Machine
end

