-- ==== Sys2Proof/Machine/Compressor.lean ====
section
/-! DEFINITION. The block compressor (42_compressor.md): `ENTRY`, the four `STEP` micro-operations, `FOLD`. -/

namespace Sys2Proof.Machine

/-- R93, R103: is `BLK` the final block, `BLK = NB - 1` as natural numbers (log 10)? -/
def State.finalBlock (s : State) : Bool := decide (s.blk + 1 = s.nb)

/-- R93 `ENTRY`. -/
def execEntry (s : State) : Host.Outcome State Fault Refusal :=
  .next (State.setUop
    { s with work := s.dig, saved := if s.finalBlock then s.dig else s.saved } uopStep0)

/-- R123: the ROUND record of round `j[5:4] + 1` with the working registers as they stand. -/
def State.emitRound (s : State) (j : BitVec 6) : State :=
  s.emit (.round (roundOf j + 1) s.work.a s.work.b s.work.c s.work.d)

/-- R98: `E`, `t`, `newB` and the rotation of the working registers, on operands read before any is written. -/
def roundUpdate (fn : Word → Word → Word → Word) (k m : Word) (n : Nat) (q : Quad) : Quad :=
  let e := fn q.b q.c q.d
  let t := q.a + e + k + m
  let newB := q.b + rotl t n
  ⟨q.d, newB, q.b, q.c⟩

/-- R98: the next micro-operation after `STEP j`. -/
def afterStep (j : BitVec 6) : BitVec 10 :=
  if j.toNat < 63 then uopStep0 ||| BitVec.ofNat 10 (j.toNat + 1) else uopFold

/-- R98 `Step(j, fn)`. -/
def State.compressStep (s : State) (j : BitVec 6) (fn : Word → Word → Word → Word) : State :=
  let before := if s.params.snapPhase = .beforeFirst ∧ stepInRound j = 0 then s.emitRound j else s
  let m := msgWord s j
  let updated : State :=
    { before with work := roundUpdate fn (kAt j) m.1 (sAt j) s.work, draws := m.2 }
  let afterFirst :=
    if s.params.snapPhase = .afterFirst ∧ stepInRound j = 0 then updated.emitRound j else updated
  let afterLast :=
    if s.params.snapPhase = .afterLast ∧ stepInRound j = 15 then afterFirst.emitRound j else afterFirst
  afterLast.setUop (afterStep j)

/-- R99 `STEP_F j`. -/
def execStepF (j : BitVec 6) (s : State) : Host.Outcome State Fault Refusal :=
  .next (s.compressStep j fnF)

/-- R100 `STEP_G j`. -/
def execStepG (j : BitVec 6) (s : State) : Host.Outcome State Fault Refusal :=
  .next (s.compressStep j fnG)

/-- R101 `STEP_H j`. -/
def execStepH (j : BitVec 6) (s : State) : Host.Outcome State Fault Refusal :=
  .next (s.compressStep j fnH)

/-- R102 `STEP_I j`. -/
def execStepI (j : BitVec 6) (s : State) : Host.Outcome State Fault Refusal :=
  .next (s.compressStep j fnI)

/-- R103 `FOLD`. -/
def execFold (s : State) : Host.Outcome State Fault Refusal :=
  let folded : State := { s with dig := s.dig.add s.work }
  .next (if folded.finalBlock then State.setUop { folded with fin := folded.dig } uopFinal
    else State.setUop { folded with blk := folded.blk + 1 } uopEntry)

end Sys2Proof.Machine
end

