-- ==== Sys2Proof/Machine/Finalizer.lean ====
section
/-! DEFINITION. The finalizer (44_finalizer.md): `FINAL`, and the idle micro-operation `HALT`. -/

namespace Sys2Proof.Machine

/-- R124: the FINAL record. -/
def State.finalRecord (s : State) : ObsRecord :=
  .final (s.fin.sub s.saved) s.saved s.dig.bytes

/-- R133 `FINAL`. -/
def execFinal (s : State) : Host.Outcome State Fault Refusal :=
  .next (State.emit (State.setUop { s with digest := s.dig, done := true } uopHalt) s.finalRecord)

/-- R134 `HALT`: the core is idle, a turn given to it changes nothing (log 8). -/
def execHalt (s : State) : Host.Outcome State Fault Refusal := .next s

end Sys2Proof.Machine
end

