-- ==== Sys2Proof/Machine/Flags.lean ====
section
/-! DEFINITION. The status bits (R30, R35): the only flags of this hardware, and the words CTRL and STATUS read as. -/

namespace Sys2Proof.Machine

/-- A bit as a 32-bit word. -/
def bitWord (b : Bool) : Word := if b then 1 else 0

/-- R30: `BUSY = 1` exactly when `uop.op != HALT`; no storage of its own. -/
def State.busy (s : State) : Bool := decide (s.uop.extractLsb' 6 4 ≠ 0)

/-- R146: `zext_32(LEN_ERR << 2 | DONE << 1 | BUSY)`. -/
def State.statusWord (s : State) : Word :=
  (bitWord s.lenErr <<< 2) ||| (bitWord s.done <<< 1) ||| bitWord s.busy

/-- R145: `zext_32(OBS_EN << 1)`. -/
def State.ctrlWord (s : State) : Word := bitWord s.obsEn <<< 1

/-- R142: the length check of START. -/
def State.lengthFits (s : State) : Bool := decide (s.msgLen.toNat ≤ s.params.maxMsgBytes.val)

end Sys2Proof.Machine
end

