-- ==== Sys2Proof/Machine/HostMsg.lean ====
section
/-! DEFINITION. Host transactions on the message window and on reserved addresses (45_host_interface.md). -/

namespace Sys2Proof.Machine

/-- R154: the word at `w` returned to the host; a byte never written is a draw (U3). -/
def State.readMsgWord (s : State) (w : BitVec 29) : State :=
  let r := readWord s.msg s.draws (msgByteOffset w)
  State.respond { s with draws := r.2 } r.1

/-- R155: message bytes `4w .. 4w+3 = bytesLE(wdata)`. -/
def State.writeMsgWord (s : State) (w : BitVec 29) (wdata : Word) : State :=
  { s with msg := s.msg.writeBytes (msgByteOffset w) (bytesLE wdata) }

/-- R154 `RD_MSG w`. -/
def execRdMsg (w : BitVec 29) (s : State) : Host.Outcome State Fault Refusal :=
  .next (if w.toNat < msgWords s.params then s.readMsgWord w else s.respond 0)

/-- R155 `WR_MSG w`. -/
def execWrMsg (w : BitVec 29) (wdata : Word) (s : State) : Host.Outcome State Fault Refusal :=
  .next (if msgWords s.params ≤ w.toNat then s else if s.busy then s else s.writeMsgWord w wdata)

/-- R156 `RD_RSVD`. -/
def execRdRsvd (_wa : BitVec 30) (s : State) : Host.Outcome State Fault Refusal := .next (s.respond 0)

/-- R157 `WR_RSVD`: ignored. -/
def execWrRsvd (_wa : BitVec 30) (_wdata : Word) (s : State) : Host.Outcome State Fault Refusal := .next s

end Sys2Proof.Machine
end

