-- ==== Sys2Proof/Machine/HostRegs.lean ====
section
/-! DEFINITION. Host transactions on the registers `CTRL`, `STATUS`, `MSG_LEN`, `CAP`, `DIGEST0..3`
(45_host_interface.md). -/

namespace Sys2Proof.Machine

/-- R143, R22: the initial constants `A0..D0`. -/
def initialDigest : Quad := ⟨0x67452301, 0xefcdab89, 0x98badcfe, 0x10325476⟩

/-- R143 `StartAccepted`. -/
def State.startAccepted (s : State) : State :=
  { s with
    size := s.msgLen
    obs := s.obsEn
    dig := initialDigest
    digest := Quad.zero
    done := false
    lenErr := false
    uop := uopPad }

/-- R144 `StartRejected`. -/
def State.startRejected (s : State) : State :=
  { s with digest := Quad.zero, done := false, lenErr := true }

/-- R142 `WR_CTRL` while idle: `OBS_EN` is written first, then START is taken (R168). -/
def State.writeCtrl (s : State) (wdata : Word) : State :=
  let written : State := { s with obsEn := wdata.getLsbD 1 }
  if wdata.getLsbD 0 then
    if written.lengthFits then written.startAccepted else written.startRejected
  else written

/-- R142 `WR_CTRL`. -/
def execWrCtrl (wdata : Word) (s : State) : Host.Outcome State Fault Refusal :=
  .next (if s.busy then s else s.writeCtrl wdata)

/-- R145 `RD_CTRL`. -/
def execRdCtrl (s : State) : Host.Outcome State Fault Refusal := .next (s.respond s.ctrlWord)

/-- R146 `RD_STATUS`. -/
def execRdStatus (s : State) : Host.Outcome State Fault Refusal := .next (s.respond s.statusWord)

/-- R147 `WR_STATUS`: ignored. -/
def execWrStatus (_wdata : Word) (s : State) : Host.Outcome State Fault Refusal := .next s

/-- R148 `RD_MSG_LEN`. -/
def execRdMsgLen (s : State) : Host.Outcome State Fault Refusal := .next (s.respond s.msgLen)

/-- R149 `WR_MSG_LEN`. -/
def execWrMsgLen (wdata : Word) (s : State) : Host.Outcome State Fault Refusal :=
  .next (if s.busy then s else { s with msgLen := wdata })

/-- R150 `RD_CAP`: `MAX_MSG_BYTES` (R32). -/
def execRdCap (s : State) : Host.Outcome State Fault Refusal :=
  .next (s.respond (BitVec.ofNat 32 s.params.maxMsgBytes.val))

/-- R151 `WR_CAP`: ignored. -/
def execWrCap (_wdata : Word) (s : State) : Host.Outcome State Fault Refusal := .next s

/-- R152 `RD_DIGEST k`. -/
def execRdDigest (k : BitVec 2) (s : State) : Host.Outcome State Fault Refusal :=
  .next (s.respond (s.digest.word k))

/-- R153 `WR_DIGEST k`: ignored. -/
def execWrDigest (_k : BitVec 2) (_wdata : Word) (s : State) : Host.Outcome State Fault Refusal := .next s

end Sys2Proof.Machine
end

