-- ==== Sys2Proof/Machine/Illegal.lean ====
section
/-! DEFINITION. The reserved micro-operation words (R69, R166). -/

namespace Sys2Proof.Machine

/-- R69, R166: one step to the faulted state, recording `ILLEGAL_UOP` and the word; every other element keeps its
value (log 7). -/
def execReservedUop (word : BitVec 10) (s : State) : Host.Outcome State Fault Refusal :=
  .next (s.raiseFault (.illegalUop word))

end Sys2Proof.Machine
end

