-- ==== Sys2Proof/Machine/Padder.lean ====
section
/-! DEFINITION. The padder (41_padder.md): the micro-operation `PAD`. -/

namespace Sys2Proof.Machine

/-- R82 `PadLen(size)`. -/
def padLen (size : Nat) : Nat :=
  if size % 64 < 56 then 56 - size % 64 else 120 - size % 64

/-- R84 `NB`. -/
def blockCount (size : Nat) : Nat := (size + padLen size + 8) / 64

/-- R85 `LenLo(size)`. -/
def lenLo (size : Nat) : Word := BitVec.ofNat 32 (8 * size)

/-- R86 `LenHi(size)`, by `LEN_HI_MODE`. -/
def lenHi (mode : LenHiMode) (size : Nat) : Word :=
  match mode with
  | .lenExact => BitVec.ofNat 32 (8 * size / 2 ^ 32)
  | .lenZero => 0

/-- R83: "original bytes + one `0x80` byte + zero bytes + 8-byte little-endian bit-length". -/
def padBytes (mode : LenHiMode) (size : Nat) (original : List Byte) : List Byte :=
  original ++ [0x80] ++ List.replicate (padLen size - 1) 0 ++ bytesLE (lenLo size) ++ bytesLE (lenHi mode size)

/-- R122: a buffer split into `nb` blocks of 64 bytes, in byte order. -/
def splitBlocks : Nat → List Byte → List (List Byte)
  | 0, _ => []
  | nb + 1, bytes => bytes.take 64 :: splitBlocks nb (bytes.drop 64)

/-- R81 `PAD`. Bytes of `PBUF` at offsets `>= 64 * NB` keep what they hold (log 14). -/
def execPad (s : State) : Host.Outcome State Fault Refusal :=
  let size := s.size.toNat
  let original := readBytes s.msg s.draws 0 size
  let bytes := padBytes s.params.lenHiMode size original.1
  let padded : State :=
    { s with pbuf := s.pbuf.writeBytes 0 bytes, nb := blockCount size, blk := 0, draws := original.2 }
  .next ((padded.emit (.padded (blockCount size) (splitBlocks (blockCount size) bytes))).setUop uopEntry)

end Sys2Proof.Machine
end

