-- ==== Sys2Proof/Machine/Dispatch.lean ====
section
/-! DEFINITION. Dispatch (R67, R141): one arm per row of the opcode table. -/

namespace Sys2Proof.Machine

/-- R67, R141: an instruction performs the rule its row names. -/
def exec (i : Instr) (s : State) : Host.Outcome State Fault Refusal :=
  match i with
  | .halt => Sys2Proof.Machine.execHalt s
  | .pad => Sys2Proof.Machine.execPad s
  | .entry => Sys2Proof.Machine.execEntry s
  | .stepF j => Sys2Proof.Machine.execStepF j s
  | .stepG j => Sys2Proof.Machine.execStepG j s
  | .stepH j => Sys2Proof.Machine.execStepH j s
  | .stepI j => Sys2Proof.Machine.execStepI j s
  | .fold => Sys2Proof.Machine.execFold s
  | .final => Sys2Proof.Machine.execFinal s
  | .reservedUop word => Sys2Proof.Machine.execReservedUop word s
  | .rdCtrl => Sys2Proof.Machine.execRdCtrl s
  | .wrCtrl wdata => Sys2Proof.Machine.execWrCtrl wdata s
  | .rdStatus => Sys2Proof.Machine.execRdStatus s
  | .wrStatus wdata => Sys2Proof.Machine.execWrStatus wdata s
  | .rdMsgLen => Sys2Proof.Machine.execRdMsgLen s
  | .wrMsgLen wdata => Sys2Proof.Machine.execWrMsgLen wdata s
  | .rdCap => Sys2Proof.Machine.execRdCap s
  | .wrCap wdata => Sys2Proof.Machine.execWrCap wdata s
  | .rdDigest k => Sys2Proof.Machine.execRdDigest k s
  | .wrDigest k wdata => Sys2Proof.Machine.execWrDigest k wdata s
  | .rdMsg w => Sys2Proof.Machine.execRdMsg w s
  | .wrMsg w wdata => Sys2Proof.Machine.execWrMsg w wdata s
  | .rdRsvd wa => Sys2Proof.Machine.execRdRsvd wa s
  | .wrRsvd wa wdata => Sys2Proof.Machine.execWrRsvd wa wdata s

end Sys2Proof.Machine
end

