-- ==== Sys2Proof/WellFormed.lean ====
section
/-! DEFINITION. Which terms of Instr stand for an instruction of the spec: the ranges of R64, R69, R71, R75. -/

namespace Sys2Proof

/-- R69: `op` in 6..15, or `op` in {0, 1, 2, 4, 5} and `j != 0`. -/
def reservedWord (u : BitVec 10) : Bool :=
  let op := u.extractLsb' 6 4
  let j := u.extractLsb' 0 6
  decide (6 ≤ op.toNat) || (decide (op ≠ 3) && decide (j ≠ 0))

/-- R71: a register-block word address (`wa[29] = 0`) with `wa[28:3] != 0`. -/
def reservedAddress (wa : BitVec 30) : Bool :=
  decide (8 ≤ wa.toNat) && decide (wa.toNat < 2 ^ 29)

/-- The step index lies in the range of its row (R64, R75); a reserved word or address is one that no other row
matches (R69, R71). -/
def Instr.wf : Instr → Bool
  | .halt => true
  | .pad => true
  | .entry => true
  | .stepF j => decide (j.extractLsb' 4 2 = 0)
  | .stepG j => decide (j.extractLsb' 4 2 = 1)
  | .stepH j => decide (j.extractLsb' 4 2 = 2)
  | .stepI j => decide (j.extractLsb' 4 2 = 3)
  | .fold => true
  | .final => true
  | .reservedUop u => reservedWord u
  | .rdCtrl => true
  | .wrCtrl _ => true
  | .rdStatus => true
  | .wrStatus _ => true
  | .rdMsgLen => true
  | .wrMsgLen _ => true
  | .rdCap => true
  | .wrCap _ => true
  | .rdDigest _ => true
  | .wrDigest _ _ => true
  | .rdMsg _ => true
  | .wrMsg _ _ => true
  | .rdRsvd wa => reservedAddress wa
  | .wrRsvd wa _ => reservedAddress wa

end Sys2Proof
end

