-- ==== Sys2Proof/Decode.lean ====
section
/-! DEFINITION. The decoder (R67, R71: rows in the table's order, first match wins), the encoder written from the same
tables, and the reading of a word numbered as spec/opcode_table.json numbers it. -/

namespace Sys2Proof

/-- R64 and R67: the micro-operation a 10-bit word names. A word that matches no row is reserved (R69). -/
def decodeUop (u : BitVec 10) : Instr :=
  if u &&& 0x3FF#10 = 0x000#10 then .halt
  else if u &&& 0x3FF#10 = 0x040#10 then .pad
  else if u &&& 0x3FF#10 = 0x080#10 then .entry
  else if u &&& 0x3F0#10 = 0x0C0#10 then .stepF (u.extractLsb' 0 6)
  else if u &&& 0x3F0#10 = 0x0D0#10 then .stepG (u.extractLsb' 0 6)
  else if u &&& 0x3F0#10 = 0x0E0#10 then .stepH (u.extractLsb' 0 6)
  else if u &&& 0x3F0#10 = 0x0F0#10 then .stepI (u.extractLsb' 0 6)
  else if u &&& 0x3FF#10 = 0x100#10 then .fold
  else if u &&& 0x3FF#10 = 0x140#10 then .final
  else .reservedUop u

/-- R71: the transaction a 31-bit header names, with its data word. Total (R73). -/
def decodeHost (h : BitVec 31) (wdata : Word) : Instr :=
  if h &&& 0x7FFFFFFF#31 = 0x00000000#31 then .rdCtrl
  else if h &&& 0x7FFFFFFF#31 = 0x40000000#31 then .wrCtrl wdata
  else if h &&& 0x7FFFFFFF#31 = 0x00000001#31 then .rdStatus
  else if h &&& 0x7FFFFFFF#31 = 0x40000001#31 then .wrStatus wdata
  else if h &&& 0x7FFFFFFF#31 = 0x00000002#31 then .rdMsgLen
  else if h &&& 0x7FFFFFFF#31 = 0x40000002#31 then .wrMsgLen wdata
  else if h &&& 0x7FFFFFFF#31 = 0x00000003#31 then .rdCap
  else if h &&& 0x7FFFFFFF#31 = 0x40000003#31 then .wrCap wdata
  else if h &&& 0x7FFFFFFC#31 = 0x00000004#31 then .rdDigest (h.extractLsb' 0 2)
  else if h &&& 0x7FFFFFFC#31 = 0x40000004#31 then .wrDigest (h.extractLsb' 0 2) wdata
  else if h &&& 0x60000000#31 = 0x20000000#31 then .rdMsg (h.extractLsb' 0 29)
  else if h &&& 0x60000000#31 = 0x60000000#31 then .wrMsg (h.extractLsb' 0 29) wdata
  else if h &&& 0x40000000#31 = 0x00000000#31 then .rdRsvd (h.extractLsb' 0 30)
  else .wrRsvd (h.extractLsb' 0 30) wdata

/-- What a step takes up, decoded. -/
def decode : Fetched → Instr
  | .uop u => decodeUop u
  | .host h wdata => decodeHost h wdata

/-- R63: `uop[9:6] = op`, `uop[5:0] = j`. -/
def uopWord (op : BitVec 4) (j : BitVec 6) : BitVec 10 := op ++ j

/-- R70: `header[30] = we`, `header[29:0] = wa`. -/
def hostHeader (we : BitVec 1) (wa : BitVec 30) : BitVec 31 := we ++ wa

/-- R71: the word address of `MSG` word `w`, `wa[29] = 1` and `wa[28:0] = w`. -/
def msgAddress (w : BitVec 29) : BitVec 30 := 1#1 ++ w

/-- R71, R72: the word address of `DIGEST` word `k`. -/
def digestAddress (k : BitVec 2) : BitVec 30 := 1#28 ++ k

/-- The words of an instruction (R64, R70, R71). A read's data word is ignored (R70); the encoder writes 0 there. -/
def encode : Instr → Fetched
  | .halt => .uop (uopWord 0 0)
  | .pad => .uop (uopWord 1 0)
  | .entry => .uop (uopWord 2 0)
  | .stepF j => .uop (uopWord 3 j)
  | .stepG j => .uop (uopWord 3 j)
  | .stepH j => .uop (uopWord 3 j)
  | .stepI j => .uop (uopWord 3 j)
  | .fold => .uop (uopWord 4 0)
  | .final => .uop (uopWord 5 0)
  | .reservedUop u => .uop u
  | .rdCtrl => .host (hostHeader 0 0) 0
  | .wrCtrl wdata => .host (hostHeader 1 0) wdata
  | .rdStatus => .host (hostHeader 0 1) 0
  | .wrStatus wdata => .host (hostHeader 1 1) wdata
  | .rdMsgLen => .host (hostHeader 0 2) 0
  | .wrMsgLen wdata => .host (hostHeader 1 2) wdata
  | .rdCap => .host (hostHeader 0 3) 0
  | .wrCap wdata => .host (hostHeader 1 3) wdata
  | .rdDigest k => .host (hostHeader 0 (digestAddress k)) 0
  | .wrDigest k wdata => .host (hostHeader 1 (digestAddress k)) wdata
  | .rdMsg w => .host (hostHeader 0 (msgAddress w)) 0
  | .wrMsg w wdata => .host (hostHeader 1 (msgAddress w)) wdata
  | .rdRsvd wa => .host (hostHeader 0 wa) 0
  | .wrRsvd wa wdata => .host (hostHeader 1 wa) wdata

/-- Why a numbered word is no encoded form (R63, R70, R74): it does not fit the 10 bits of a micro-operation word, the
31 bits of a header, or the 32 bits of the data word. -/
inductive DecodeReject where
  | uopTooWide
  | headerTooWide
  | dataTooWide
  deriving DecidableEq, Repr

/-- A word of `nbits` bits read as the table numbers it (log 11): up to 16 bits it is a micro-operation word; above, a
host transaction, its header in bits 30..0 and its data word in bits 63..32. -/
def fetchedOfTableWord (nbits w : Nat) : Except DecodeReject Fetched :=
  if nbits ≤ 16 then
    if w < 2 ^ 10 then .ok (.uop (BitVec.ofNat 10 w)) else .error .uopTooWide
  else if 2 ^ 31 ≤ w % 2 ^ 32 then .error .headerTooWide
  else if 2 ^ 64 ≤ w then .error .dataTooWide
  else .ok (.host (BitVec.ofNat 31 (w % 2 ^ 32)) (BitVec.ofNat 32 (w / 2 ^ 32)))

/-- The instruction the decoder reads from a table word. -/
def decodeTableWord (nbits w : Nat) : Option Instr :=
  match fetchedOfTableWord nbits w with
  | .ok f => some (decode f)
  | .error _ => none

end Sys2Proof
end

