-- ==== Sys2Proof/Machine/Fetch.lean ====
section
/-! DEFINITION. Whose turn it is and what it takes up (R55, R67, R141, R180). -/

namespace Sys2Proof.Machine

/-- The core has the turn: `pending` gives it, or is empty. -/
def State.coreHasTurn (s : State) : Prop := s.pending = [] ∨ ∃ rest, s.pending = .core :: rest

/-- What the next turn of the interleaving does. -/
inductive Taken where
  /-- an instruction to decode and perform, and the state it is performed in -/
  | run (f : Fetched) (s : State)
  /-- a reset (R180) of the state -/
  | reset (s : State)
  /-- the core has the turn in the faulted state, where it has no step (R166) -/
  | stopped (f : Fault)
  deriving DecidableEq, Repr

/-- R67: the core takes up the word in `uop`; in the faulted state it has no further step (R166). -/
def State.coreTurn (s : State) : Taken :=
  match s.faultRec with
  | none => .run (.uop s.uop) s
  | some f => .stopped f

/-- The first turn of `pending` has been had. -/
def State.dropTurn (s : State) : State := { s with pending := s.pending.tail }

/-- R55: the first turn of `pending` is taken off it and had; with none left the turn is the core's (log 4). -/
def State.takeTurn (s : State) : Taken :=
  match s.pending with
  | [] => s.dropTurn.coreTurn
  | .core :: _ => s.dropTurn.coreTurn
  | .host header wdata :: _ => .run (.host header wdata) s.dropTurn
  | .reset :: _ => .reset s.dropTurn

/-- The state whose next turn takes up `f`: a micro-operation word stands in `uop`, no fault is recorded and the core
has the turn; a host transaction is the first of `pending` (log 11, log 12). -/
def State.withFetched (s : State) : Fetched → State
  | .uop u => { s with uop := u, faultRec := none, pending := .core :: s.pending }
  | .host header wdata => { s with pending := .host header wdata :: s.pending }

/-- As `withFetched`, for a word numbered as spec/opcode_table.json numbers it; a word that is no encoded form places
nothing. -/
def State.placeTableWord (s : State) (nbits w : Nat) : State :=
  match fetchedOfTableWord nbits w with
  | .ok f => s.withFetched f
  | .error _ => s

end Sys2Proof.Machine
end

