-- ==== Sys2Proof/Machine/Step.lean ====
section
/-! DEFINITION. One step of the machine: one turn of the interleaving (R55). -/

namespace Sys2Proof.Machine

/-- One atomic step (R52, R55). -/
def step (s : State) : Host.Outcome State Fault Refusal :=
  match s.takeTurn with
  | .run f s' => exec (decode f) s'
  | .reset s' => .next s'.afterReset
  | .stopped f => .fault f

/-- The state whose next step runs the instruction of a table word (log 11, log 12). -/
def State.withFetchWord (s : State) (nbits w : Nat) : State := s.placeTableWord nbits w

end Sys2Proof.Machine
end

