-- ==== Sys2Proof/Machine/HostProgram.lean ====
section
/-! DEFINITION. The syntax of host programs and its expansion into transactions (R75, R76), and the boot and use
sequence (R182): functions that build turns for `pending`. -/

namespace Sys2Proof.Machine

/-- R75 `STEP j`: the `STEP_x` row that `j[5:4]` selects. -/
def stepPseudo (j : BitVec 6) : Instr :=
  let r := j.toNat / 16
  if r = 0 then .stepF j else if r = 1 then .stepG j else if r = 2 then .stepH j else .stepI j

/-- R72, R76: the register names of the host syntax. -/
inductive HostReg where
  | ctrl
  | status
  | msgLen
  | cap
  | digest (k : BitVec 2)
  deriving DecidableEq, Repr

/-- R76: `<addr>` is a register name, `MSG+<4w>`, or a byte address that is a multiple of 4, here given by its word
address. -/
inductive HostAddr where
  | reg (r : HostReg)
  | msg (w : BitVec 29)
  | word (wa : BitVec 30)
  deriving DecidableEq, Repr

/-- R72: the word address of a register. -/
def HostReg.wordAddress : HostReg → BitVec 30
  | .ctrl => 0
  | .status => 1
  | .msgLen => 2
  | .cap => 3
  | .digest k => digestAddress k

/-- R53, R71: the word address an `<addr>` names. -/
def HostAddr.wordAddress : HostAddr → BitVec 30
  | .reg r => r.wordAddress
  | .msg w => msgAddress w
  | .word wa => wa

/-- R70: a byte address's word address, `addr[31:2]`; a misaligned address cannot be expressed (R51). -/
def wordOfByteAddress (a : Word) : BitVec 30 := a.extractLsb' 2 30

/-- R76 `RD <addr>`. -/
def rd (a : HostAddr) : Turn := .host (hostHeader 0 a.wordAddress) 0

/-- R76 `WR <addr>, <value>`. -/
def wr (a : HostAddr) (value : Word) : Turn := .host (hostHeader 1 a.wordAddress) value

/-- R76 `START`. -/
def startTurns : List Turn := [wr (.reg .ctrl) 0x1]

/-- R76 `START OBS`. -/
def startObsTurns : List Turn := [wr (.reg .ctrl) 0x3]

/-- R76: the words `LE32(b[4w], ..., b[4w+3])`, bytes beyond the message taken as 0, from word `w` on. -/
def loadWords : Nat → List Byte → List Turn
  | w, b0 :: b1 :: b2 :: b3 :: bs => wr (.msg (BitVec.ofNat 29 w)) (le32 b0 b1 b2 b3) :: loadWords (w + 1) bs
  | _, [] => []
  | w, [b0] => [wr (.msg (BitVec.ofNat 29 w)) (le32 b0 0 0 0)]
  | w, [b0, b1] => [wr (.msg (BitVec.ofNat 29 w)) (le32 b0 b1 0 0)]
  | w, [b0, b1, b2] => [wr (.msg (BitVec.ofNat 29 w)) (le32 b0 b1 b2 0)]

/-- R76 `LOADMSG`. -/
def loadMsgTurns (bytes : List Byte) : List Turn :=
  loadWords 0 bytes ++ [wr (.reg .msgLen) (BitVec.ofNat 32 bytes.length)]

/-- R76 `WAIT`: `RD STATUS` repeated; how often depends on the interleaving (log 17). -/
def waitTurns (polls : Nat) : List Turn := List.replicate polls (rd (.reg .status))

/-- R76: a status word that ends `WAIT`, `DONE` or `LEN_ERR`. -/
def waitEnds (status : Word) : Bool := status.getLsbD 1 || status.getLsbD 2

/-- R76 `READDIGEST`. -/
def readDigestTurns : List Turn :=
  [rd (.reg (.digest 0)), rd (.reg (.digest 1)), rd (.reg (.digest 2)), rd (.reg (.digest 3))]

/-- R68, R183: the core steps of one computation, `2 + 66*NB`. -/
def computationSteps (size : Nat) : Nat := 2 + 66 * blockCount size

/-- R182: the six-step sequence for one digest of an idle core, in one interleaving: the core runs to the end before
the host polls once. -/
def digestTurns (bytes : List Byte) (observe : Bool) : List Turn :=
  loadMsgTurns bytes ++ (if observe then startObsTurns else startTurns) ++
    List.replicate (computationSteps bytes.length) .core ++ waitTurns 1 ++ readDigestTurns

end Sys2Proof.Machine
end

