-- ==== Sys2Proof/Machine/Reference.lean ====
section
/-! DEFINITION. The document's functions as the spec restates them without the machine: the padded byte (R83), the
compression function (R105), the digest of a message (R135). Statements compare the machine with these. -/

namespace Sys2Proof.Machine

/-- R83 `PadByte(size, i)`, for a message whose byte `i` is `original i`. -/
def padByte (mode : LenHiMode) (size : Nat) (original : Nat → Byte) (i : Nat) : Byte :=
  let p := padLen size
  if i < size then original i
  else if i = size then 0x80
  else if i < size + p then 0x00
  else if i < size + p + 4 then (lenLo size).extractLsb' (8 * (i - (size + p))) 8
  else (lenHi mode size).extractLsb' (8 * (i - (size + p + 4))) 8

/-- R94: `fn_r` by the round. -/
def fnOfRound (r : Nat) : Word → Word → Word → Word :=
  if r = 0 then fnF else if r = 1 then fnG else if r = 2 then fnH else fnI

/-- R105: the loop body of `Compress` for step `j`, on message words `m`. -/
def compressRound (m : Nat → Word) (q : Quad) (j : BitVec 6) : Quad :=
  let newB := q.b + rotl (q.a + fnOfRound (roundOf j) q.b q.c q.d + kAt j + m (msgIndex j)) (sAt j)
  ⟨q.d, newB, q.b, q.c⟩

/-- R105: the working registers after the first `n` steps of a block. -/
def workAfter (m : Nat → Word) (q : Quad) : Nat → Quad
  | 0 => q
  | n + 1 => compressRound m (workAfter m q n) (BitVec.ofNat 6 n)

/-- R105 `Compress`. -/
def compress (m : Nat → Word) (q : Quad) : Quad := q.add (workAfter m q 64)

/-- R96, R105 `m_b[k]` of a buffer of bytes. -/
def bufferWord (buffer : Nat → Byte) (b k : Nat) : Word :=
  let o := 64 * b + 4 * k
  le32 (buffer o) (buffer (o + 1)) (buffer (o + 2)) (buffer (o + 3))

/-- R105: the digest state after the first `n` blocks, "in order b = 0 .. NB-1 starting from the initial constants". -/
def digestAfter (buffer : Nat → Byte) : Nat → Quad
  | 0 => initialDigest
  | n + 1 => compress (bufferWord buffer n) (digestAfter buffer n)

/-- R135: the digest registers of a message, a function of its bytes alone. -/
def md5 (mode : LenHiMode) (message : List Byte) : Quad :=
  digestAfter (padByte mode message.length fun i => message.getD i 0) (blockCount message.length)

end Sys2Proof.Machine
end

