-- ==== Sys2Proof/Machine/Render.lean ====
section
/-! DEFINITION. The rendering functions of the observer's records (R125..R131). A string is the list of its
characters (log 16). -/

namespace Sys2Proof.Machine

abbrev Text := List Char

/-- A bit as the digit `1` or `0`. -/
def bitChar (b : Bool) : Char := if b then '1' else '0'

/-- R125 `bin8(v)`: character `k` is `'1'` if `v[7-k] = 1`. -/
def bin8 (v : Byte) : Text := (List.range 8).map fun k => bitChar (v.getLsbD (7 - k))

/-- R126 `bin32(w)`: character `k` is `'1'` if `w[31-k] = 1`. -/
def bin32 (w : Word) : Text := (List.range 32).map fun k => bitChar (w.getLsbD (31 - k))

/-- The lowercase hexadecimal digits. -/
def hexDigits : Text := ['0', '1', '2', '3', '4', '5', '6', '7', '8', '9', 'a', 'b', 'c', 'd', 'e', 'f']

/-- The lowercase hexadecimal digit of a 4-bit value; every value has one (`hexDigits` has 16). -/
def hexChar (n : BitVec 4) : Char := hexDigits.getD n.toNat '0'

/-- R127 `hex8(w)`: character `k` is the digit of `w[31-4k : 28-4k]`. -/
def hex8 (w : Word) : Text := (List.range 8).map fun k => hexChar (w.extractLsb' (28 - 4 * k) 4)

/-- R128 `hex2(v)`: the digit of `v[7:4]`, then that of `v[3:0]`. -/
def hex2 (v : Byte) : Text := [hexChar (v.extractLsb' 4 4), hexChar (v.extractLsb' 0 4)]

/-- R128 `hex32(d)`. -/
def hex32 (d : List Byte) : Text := d.flatMap hex2

/-- R129: a block as its sequence of byte strings. -/
def renderBlock (block : List Byte) : List Text := block.map bin8

/-- R129: strings joined with one space between neighbours and none at either end. -/
def joinWithSpace : List Text → Text
  | [] => []
  | [t] => t
  | t :: u :: ts => t ++ ' ' :: joinWithSpace (u :: ts)

/-- R129: the joined form of a block. -/
def renderBlockJoined (block : List Byte) : Text := joinWithSpace (renderBlock block)

/-- The arguments of `onPadded` (R129), `onRoundBoundary` (R130), `onFinal` (R131). -/
inductive Rendered where
  | onPadded (blocks : List (List Text))
  | onRoundBoundary (round : Nat) (a b c d : Text)
  | onFinal (workA workB workC workD savedAA savedBB savedCC savedDD final : Text)
  deriving DecidableEq, Repr

/-- R129, R130, R131. -/
def ObsRecord.render : ObsRecord → Rendered
  | .padded _ blocks => .onPadded (blocks.map renderBlock)
  | .round r a b c d => .onRoundBoundary r (bin32 a) (bin32 b) (bin32 c) (bin32 d)
  | .final w s d =>
    .onFinal (hex8 w.a) (hex8 w.b) (hex8 w.c) (hex8 w.d) (hex8 s.a) (hex8 s.b) (hex8 s.c) (hex8 s.d) (hex32 d)

end Sys2Proof.Machine
end

