-- ==== Sys2Proof/Safety.lean ====
section
/-! DEFINITION. What counts as a safe state of MD5CORE: the invariant the rules of spec/ promise of every run, and the
end of a run (R189). -/

namespace Sys2Proof.Machine

/-- `uop` holds the class `op` (R63). -/
abbrev State.inClass (s : State) (op : BitVec 4) : Prop := s.uop.extractLsb' 6 4 = op

/-- What holds in every state of every run. -/
structure RunInv (s : State) : Prop where
  /-- canonical form of the message window -/
  msgWf : s.msg.wf = true
  /-- canonical form of the padded buffer -/
  pbufWf : s.pbuf.wf = true
  /-- R46, R47: the message window holds bytes at offsets below `4 * MSG_WORDS` -/
  msgRange : ∀ p ∈ s.msg, p.1 < 4 * msgWords s.params
  /-- R46, R48: the padded buffer holds bytes at offsets below `64 * NB_MAX` -/
  pbufRange : ∀ p ∈ s.pbuf, p.1 < 64 * nbMax s.params
  /-- R81, R144: a length above `MAX_MSG_BYTES` never reaches `SIZE` -/
  sizeFits : s.size.toNat ≤ s.params.maxMsgBytes.val
  /-- R69: the sequencer never holds a reserved word -/
  uopLegal : reservedWord s.uop = false
  /-- R166: no fault is recorded -/
  noFault : s.faultRec = none
  /-- R30: `BUSY` and `DONE` are never both 1 -/
  busyNotDone : s.busy = true → s.done = false
  /-- R30: `BUSY` and `LEN_ERR` are never both 1 -/
  busyNotLenErr : s.busy = true → s.lenErr = false
  /-- R142..R144, R133: `DONE` and `LEN_ERR` are never both 1 -/
  doneNotLenErr : s.done = true → s.lenErr = false
  /-- R152, R185: the digest registers read 0 until `DONE` -/
  digestZero : s.done = false → s.digest = Quad.zero
  /-- R133, R25: with `DONE` they are the finished digest `A..D`, which `FA..FD` equal -/
  digestDone : s.done = true → s.digest = s.dig ∧ s.fin = s.dig
  /-- R18, R19, R84: while a block is compressed, `BLK < NB` and `NB` is the block count of `SIZE` -/
  blockIndex : s.inClass 2 ∨ s.inClass 3 ∨ s.inClass 4 → s.blk < s.nb ∧ s.nb = blockCount s.size.toNat
  /-- R48: every byte the compressor can read has been written -/
  pbufFull : s.inClass 2 ∨ s.inClass 3 ∨ s.inClass 4 → ∀ a < 64 * s.nb, (s.pbuf.read? a).isSome = true
  /-- R24, R93: in the final block the saved registers are the block's entry registers -/
  savedEntry : s.inClass 3 ∨ s.inClass 4 → s.blk + 1 = s.nb → s.saved = s.dig
  /-- R25, R103, R124: at `FINAL` the block is the final one, `FA..FD` equal `A..D`, and they are the saved registers
  plus the working registers -/
  finalReady : s.inClass 5 → s.blk + 1 = s.nb ∧ s.nb = blockCount s.size.toNat ∧ s.fin = s.dig ∧
    s.fin = s.saved.add s.work

/-- R134, R189: the run has ended. DESIGN CHOICE (log 20): the rules ask for no further host transaction, and R55's runs
hold no reset; a state with a reset still to come is not counted as an end either. -/
def Ended (s : State) : Prop :=
  s.uop = uopHalt ∧ s.faultRec = none ∧ ∀ t ∈ s.pending, t = .core

/-- The state as far as the observer does not enter it (R106): the observer enable, its latch, the snapshot phase and
the channel are set to one value. -/
def State.eraseObserver (s : State) : State :=
  { s with obs := false, obsEn := false, obsch := [], params := { s.params with snapPhase := .afterFirst } }

/-! ### Terms the statements use -/

/-- The four bytes from offset `a` on hold the little-endian word `w` (R8, R49). -/
def HoldsWord (m : Memory) (a : Nat) (w : Word) : Prop :=
  ∀ i < 4, m.read? (a + i) = some (w.extractLsb' (8 * i) 8)

/-- The bytes from offset 0 on hold `bytes`. -/
def HoldsBytes (m : Memory) (bytes : List Byte) : Prop :=
  ∀ i (h : i < bytes.length), m.read? i = some bytes[i]

/-- R98, in numbers: the working registers after step `j` with nonlinear function `fn` and message word `m`. -/
def WorkAfterStep (fn : Word → Word → Word → Word) (j : BitVec 6) (m : Word) (q q' : Quad) : Prop :=
  let t := (q.a.toNat + (fn q.b q.c q.d).toNat + (kAt j).toNat + m.toNat) % 2 ^ 32
  let rotated := t * 2 ^ sAt j % 2 ^ 32 + t / 2 ^ (32 - sAt j)
  q'.a = q.d ∧ q'.b.toNat = (q.b.toNat + rotated) % 2 ^ 32 ∧ q'.c = q.b ∧ q'.d = q.c

/-- R123: the ROUND records step `j` appends with `OBS = 1`, from the working registers before and after it. -/
def roundRecords (phase : SnapPhase) (j : BitVec 6) (before after : Quad) : List ObsRecord :=
  let record (q : Quad) : ObsRecord := .round (j.toNat / 16 + 1) q.a q.b q.c q.d
  match phase with
  | .afterFirst => if j.toNat % 16 = 0 then [record after] else []
  | .beforeFirst => if j.toNat % 16 = 0 then [record before] else []
  | .afterLast => if j.toNat % 16 = 15 then [record after] else []

/-- What the step rule R98 says of one `STEP_x` row: for every step index of the row, the step completes and changes
nothing but the working registers, `uop`, the observer channel and the model's draws; and where the message word
`m[g(j)]` is in the buffer, it draws nothing and the registers, the records and the next micro-operation are those of
R98. -/
def StepRule (row : BitVec 6 → Instr) (first : Nat) (fn : Word → Word → Word → Word) (g : Nat → Nat) : Prop :=
  ∀ (s : State) (j : BitVec 6), first ≤ j.toNat → j.toNat < first + 16 →
    ∃ t, exec (row j) s = .next t ∧
      t = { s with work := t.work, uop := t.uop, obsch := t.obsch, draws := t.draws } ∧
      t.uop = (if j.toNat = 63 then 0x100 else BitVec.ofNat 10 (0x0C0 + (j.toNat + 1))) ∧
      t.obsch = s.obsch ++ (if s.obs then roundRecords s.params.snapPhase j s.work t.work else []) ∧
      ∀ m, HoldsWord s.pbuf (64 * s.blk + 4 * g j.toNat) m →
        WorkAfterStep fn j m s.work t.work ∧ t.draws = s.draws

/-- R180: the values the reset table gives; the elements it gives "no value" are left out (log 1), and the memories
hold no byte. -/
structure HasResetValues (s : State) : Prop where
  uop : s.uop = 0x000
  obsEn : s.obsEn = false
  status : s.busy = false ∧ s.done = false ∧ s.lenErr = false
  msgLen : s.msgLen = 0
  digest : s.digest = ⟨0, 0, 0, 0⟩
  obsch : s.obsch = []
  msg : ∀ a, s.msg.read? a = none
  pbuf : ∀ a, s.pbuf.read? a = none
  faultRec : s.faultRec = none

/-- START is issued to an idle core without a fault, with a length that fits and every message byte written (R142, R143,
R158): the situation the rules about a whole computation start from. `turns` is the interleaving that follows. -/
structure StartReady (s : State) (message : List Byte) (wdata : Word) (turns : List Turn) : Prop where
  idle : s.busy = false
  noFault : s.faultRec = none
  issued : s.pending = .host 0x40000000 wdata :: turns
  start : wdata.getLsbD 0 = true
  length : s.msgLen.toNat = message.length
  fits : message.length ≤ s.params.maxMsgBytes.val
  written : HoldsBytes s.msg message

/-- The value of a numeral in a base up to 16, most significant digit first. -/
def numeralValue (base : Nat) (t : Text) : Nat := t.foldl (fun n c => base * n + hexDigits.idxOf c) 0

end Sys2Proof.Machine
end

