-- ==== Sys2Proof/Certificates/Slice0/Obligations.lean ====
section
/-! DEFINITION. The statements about MD5CORE, from the numbered rules of spec/. Each says what the model does; none is
proved here. -/

open Sys2Proof Sys2Proof.Machine

/-! ### Encodings (30_encoding.md) -/

/-- No bit of an encoding is dropped: the decoder gives back every well-formed instruction from its words. -/
def Obligations.DecodeOfEncodeIsInstr : Prop :=
  ∀ i : Instr, i.wf = true → decode (encode i) = i

/-- Each word has one meaning: the encoder gives back every micro-operation word, and every header with the data word
of a write (a read's data word is ignored, R70; the encoder writes 0, log 19). -/
def Obligations.EncodeOfDecodeIsWord : Prop :=
  (∀ u : BitVec 10, encode (decodeUop u) = .uop u ∧ (decodeUop u).wf = true) ∧
  ∀ (h : BitVec 31) (wdata : Word),
    encode (decodeHost h wdata) = .host h (if h.getLsbD 30 then wdata else 0) ∧ (decodeHost h wdata).wf = true

/-- R63, R64, R66: the opcode map of the micro-operation words, by `op` and `j`. -/
def Obligations.UopWordsFollowTheOpcodeMap : Prop :=
  ∀ (op : BitVec 4) (j : BitVec 6), decodeUop (uopWord op j) =
    if op = 3 then
      if j.toNat < 16 then .stepF j else if j.toNat < 32 then .stepG j else if j.toNat < 48 then .stepH j else .stepI j
    else if j ≠ 0 then .reservedUop (uopWord op j)
    else if op = 0 then .halt else if op = 1 then .pad else if op = 2 then .entry
    else if op = 4 then .fold else if op = 5 then .final else .reservedUop (uopWord op j)

/-- R71: the header map by `we` and `wa`, and `RD_MSG`, `WR_MSG` beyond the window behave as the reserved rows. -/
def Obligations.HostHeadersFollowTheAddressMap : Prop :=
  (∀ (we : BitVec 1) (wa : BitVec 30) (wdata : Word), decodeHost (hostHeader we wa) wdata =
    if 2 ^ 29 ≤ wa.toNat then
      if we = 0 then .rdMsg (BitVec.ofNat 29 wa.toNat) else .wrMsg (BitVec.ofNat 29 wa.toNat) wdata
    else if wa.toNat = 0 then if we = 0 then .rdCtrl else .wrCtrl wdata
    else if wa.toNat = 1 then if we = 0 then .rdStatus else .wrStatus wdata
    else if wa.toNat = 2 then if we = 0 then .rdMsgLen else .wrMsgLen wdata
    else if wa.toNat = 3 then if we = 0 then .rdCap else .wrCap wdata
    else if wa.toNat < 8 then
      if we = 0 then .rdDigest (BitVec.ofNat 2 wa.toNat) else .wrDigest (BitVec.ofNat 2 wa.toNat) wdata
    else if we = 0 then .rdRsvd wa else .wrRsvd wa wdata) ∧
  ∀ (s : State) (w : BitVec 29) (wdata : Word), (s.params.maxMsgBytes.val + 3) / 4 ≤ w.toNat →
    exec (.rdMsg w) s = exec (.rdRsvd (msgAddress w)) s ∧
    exec (.wrMsg w wdata) s = exec (.wrRsvd (msgAddress w) wdata) s

/-- Words written out from the tables of R64 and R71, and what they stand for. -/
def Obligations.SampleWordsDecode : Prop :=
  decode (.uop 0b0000000000) = .halt ∧ decode (.uop 0b0001000000) = .pad ∧
  decode (.uop 0b0011010011) = .stepG 19 ∧ decode (.uop 0b0011111111) = .stepI 63 ∧
  decode (.uop 0b0110000000) = .reservedUop 0x180 ∧ decode (.uop 0b0100000001) = .reservedUop 0x101 ∧
  decode (.host 0x40000000 3) = .wrCtrl 3 ∧ decode (.host 0x00000006 0) = .rdDigest 2 ∧
  decode (.host 0x60000010 1) = .wrMsg 16 1 ∧ decode (.host 0x40000008 1) = .wrRsvd 8 1

/-! ### The step (R55, R67, R141) -/

/-- A step runs the decoded instruction. On the core's turn it is the one in `uop`, of a core without a fault; on a
host's turn it is the transaction. The step adds one thing: the turn had is taken off `pending`
(log 4). That the core's turn at `HALT`, where R134 gives it no step, runs `HALT` is the model's choice (log 8). -/
def Obligations.StepRunsDecodedInstruction : Prop :=
  (∀ (s : State) (i : Instr), decode (.uop s.uop) = i → i.wf = true → s.coreHasTurn → s.faultRec = none →
    step s = exec i { s with pending := s.pending.tail }) ∧
  ∀ (s : State) (h : BitVec 31) (wdata : Word) (rest : List Turn) (i : Instr),
    s.pending = .host h wdata :: rest → decode (.host h wdata) = i → i.wf = true →
    step s = exec i { s with pending := rest }

/-- A placed word is the next instruction: for every word that is an encoded form, the very next step runs the
instruction the decoder reads from it. The layout is the model's choice, log 11 and log 12. -/
def Obligations.PlacedWordRunsNext : Prop :=
  ∀ (s : State) (nbits w : Nat) (i : Instr), decodeTableWord nbits w = some i →
    ∃ s', step (s.withFetchWord nbits w) = exec i s' ∧ s'.pending = s.pending ∧
      s' = { s with uop := s'.uop, faultRec := s'.faultRec }

/-! ### The whole machine -/

/-- The invariant holds after reset, whatever interleaving follows (log 4). The elements without a reset value hold those
of log 1. -/
def Obligations.ResetSatisfiesInv : Prop :=
  ∀ turns : List Turn, RunInv { State.reset with pending := turns }

/-- Every step keeps the invariant; a step is one turn of the interleaving (log 4), a reset (log 5) among them. -/
def Obligations.StepKeepsInv : Prop :=
  ∀ s t : State, RunInv s → step s = .next t → RunInv t

/-- From a state with the invariant the machine never stops: every run of every length answers a next state. R68 and R134
give the core at `HALT` no step; that a turn there is a step which changes nothing is the model's choice (log 8), as are
the turns of `pending` and that with none left every turn is the core's (log 4). -/
def Obligations.InvRunsForever : Prop :=
  ∀ (s : State) (n : Nat), RunInv s → ∃ t, Host.Core.run Sys2Proof.core n s = .next t ∧ RunInv t

/-- R68: the transition table of the sequencer, `BLK` and `NB` with it, in every state of a run. `HALT` is left only by
an accepted START, a transaction; that a turn of the core there is a step which changes nothing is the model's choice
(log 8). -/
def Obligations.SequencerFollowsTheTransitionTable : Prop :=
  ∀ s : State, RunInv s → ∃ t, exec (decodeUop s.uop) s = .next t ∧
    (s.uop = 0x000 → t = s) ∧
    (s.uop = 0x040 → t.uop = 0x080 ∧ t.blk = 0 ∧ t.nb = (s.size.toNat + 8) / 64 + 1) ∧
    (s.uop = 0x080 → t.uop = 0x0C0 ∧ t.blk = s.blk ∧ t.nb = s.nb) ∧
    (∀ j < 63, s.uop = BitVec.ofNat 10 (0x0C0 + j) →
      t.uop = BitVec.ofNat 10 (0x0C0 + (j + 1)) ∧ t.blk = s.blk ∧ t.nb = s.nb) ∧
    (s.uop = 0x0FF → t.uop = 0x100 ∧ t.blk = s.blk ∧ t.nb = s.nb) ∧
    (s.uop = 0x100 → s.blk < s.nb - 1 → t.uop = 0x080 ∧ t.blk = s.blk + 1 ∧ t.nb = s.nb) ∧
    (s.uop = 0x100 → s.blk = s.nb - 1 → t.uop = 0x140 ∧ t.blk = s.blk ∧ t.nb = s.nb) ∧
    (s.uop = 0x140 → t.uop = 0x000 ∧ t.blk = s.blk ∧ t.nb = s.nb)

/-- R69: from reset, under every interleaving of core steps, host transactions and resets, the sequencer never holds a
reserved word and no fault is recorded. The turns are the model's form of an interleaving (log 4), and a turn of the
core at `HALT` is a step which changes nothing (log 8). -/
def Obligations.NoRunFromResetReachesAReservedWord : Prop :=
  ∀ (turns : List Turn) (n : Nat), ∃ t,
    Host.Core.run Sys2Proof.core n { State.reset with pending := turns } = .next t ∧
    reservedWord t.uop = false ∧ t.faultRec = none

/-- R166, R69: the meaning of a reserved word is to record the fault; a reserved word in `uop` takes one step; the core
has no further step; no host transaction, START included, clears the record; the state is never an end of a run. That the
step changes nothing but the fault record (and takes the turn off `pending`, log 4), and that a turn of the core in the
faulted state is the fault outcome, is the model's reading (log 7). A reset clears the record (R180), which
ResetGivesTheSpecsValues states. -/
def Obligations.ReservedWordRecordsIllegalUop : Prop :=
  (∀ (s : State) (u : BitVec 10), exec (.reservedUop u) s = .next { s with faultRec := some (.illegalUop u) }) ∧
  (∀ (s : State) (op : BitVec 4) (j : BitVec 6), s.uop = uopWord op j →
    (6 ≤ op.toNat ∨ (op ∈ [0, 1, 2, 4, 5] ∧ j ≠ 0)) → s.coreHasTurn → s.faultRec = none →
    step s = .next { s with faultRec := some (.illegalUop s.uop), pending := s.pending.tail }) ∧
  ∀ (s : State) (f : Fault), s.faultRec = some f →
    (s.coreHasTurn → step s = .fault f) ∧ ¬ Ended s ∧
    ∀ h wdata rest, s.pending = .host h wdata :: rest → ∃ t, step s = .next t ∧ t.faultRec = some f

/-- Whole-machine frame (the "Written by" lists of R17..R34): each element is changed only by the instructions its rule
names, byte by byte for the memories, and no instruction changes the parameters or the rest of the interleaving. -/
def Obligations.ElementsChangeOnlyByTheirWriters : Prop :=
  ∀ (i : Instr) (s t : State), exec i s = .next t →
    (t.uop ≠ s.uop → (∃ v, i = .wrCtrl v) ∨ i = .pad ∨ i = .entry ∨ i = .fold ∨ i = .final ∨
      ∃ j, i = .stepF j ∨ i = .stepG j ∨ i = .stepH j ∨ i = .stepI j) ∧
    (t.nb ≠ s.nb → i = .pad) ∧
    (t.blk ≠ s.blk → i = .pad ∨ i = .fold) ∧
    (t.size ≠ s.size ∨ t.obs ≠ s.obs ∨ t.obsEn ≠ s.obsEn ∨ t.lenErr ≠ s.lenErr → ∃ v, i = .wrCtrl v) ∧
    (t.dig ≠ s.dig → i = .fold ∨ ∃ v, i = .wrCtrl v) ∧
    (t.work ≠ s.work → i = .entry ∨ ∃ j, i = .stepF j ∨ i = .stepG j ∨ i = .stepH j ∨ i = .stepI j) ∧
    (t.saved ≠ s.saved → i = .entry) ∧
    (t.fin ≠ s.fin → i = .fold) ∧
    (t.done ≠ s.done ∨ t.digest ≠ s.digest → i = .final ∨ ∃ v, i = .wrCtrl v) ∧
    (t.msgLen ≠ s.msgLen → ∃ v, i = .wrMsgLen v) ∧
    ((∀ w v, i ≠ .wrMsg w v) → ∀ a, t.msg.read? a = s.msg.read? a) ∧
    (i ≠ .pad → ∀ a, t.pbuf.read? a = s.pbuf.read? a) ∧
    (t.obsch ≠ s.obsch → i = .pad ∨ i = .final ∨ ∃ j, i = .stepF j ∨ i = .stepG j ∨ i = .stepH j ∨ i = .stepI j) ∧
    (t.faultRec ≠ s.faultRec → ∃ u, i = .reservedUop u) ∧
    t.params = s.params ∧ t.pending = s.pending

/-- R34, R119: but for a reset, a step only appends to the observer channel, and only with `OBS = 1`. The turns of
`pending` are log 4. -/
def Obligations.ObserverChannelOnlyGrows : Prop :=
  ∀ s t : State, step s = .next t → (∀ rest, s.pending ≠ .reset :: rest) →
    ∃ new, t.obsch = s.obsch ++ new ∧ (s.obs = false → new = [])

/-! ### Host transactions (45_host_interface.md) -/

/-- R141: no transaction faults, stalls or is refused, and none changes the block index and count, the working, saved and
final registers, the padded buffer, the channel, the fault record. An accepted START writes `uop`, `SIZE`, `OBS` and
`A..D` (R143), which are not among them. What the host has read is log 6. -/
def Obligations.HostTransactionsAlwaysComplete : Prop :=
  ∀ (h : BitVec 31) (wdata : Word) (s : State), ∃ t, exec (decodeHost h wdata) s = .next t ∧
    t.blk = s.blk ∧ t.nb = s.nb ∧ t.work = s.work ∧ t.saved = s.saved ∧ t.fin = s.fin ∧
    t.pbuf = s.pbuf ∧ t.obsch = s.obsch ∧ t.faultRec = s.faultRec ∧
    (t.rsp = s.rsp ↔ h.getLsbD 30 = true)

/-- R56, R184: while `BUSY = 1` no transaction changes anything but what reads return (log 6) and the model's draws
(log 3). -/
def Obligations.HostCannotDisturbAComputation : Prop :=
  ∀ (h : BitVec 31) (wdata : Word) (s : State), s.busy = true → ∃ t, exec (decodeHost h wdata) s = .next t ∧
    t = { s with rsp := t.rsp, draws := t.draws }

/-- R145. -/
def Obligations.RdCtrlReturnsObsEn : Prop :=
  ∀ s : State, exec .rdCtrl s = .next { s with rsp := s.rsp ++ [if s.obsEn then 2 else 0] }

/-- R146, R30: STATUS reads `LEN_ERR`, `DONE`, `BUSY` in bits 2, 1, 0, and `BUSY` is `uop.op != HALT`. -/
def Obligations.RdStatusReturnsStatusBits : Prop :=
  ∀ s : State, ∃ v : Word, exec .rdStatus s = .next { s with rsp := s.rsp ++ [v] } ∧
    v.toNat = 4 * s.lenErr.toNat + 2 * s.done.toNat + (if s.uop.toNat / 64 = 0 then 0 else 1)

/-- R147, R151, R153, R157: writes to read-only registers and reserved addresses are ignored. -/
def Obligations.ReadOnlyWritesAreIgnored : Prop :=
  ∀ (s : State) (wdata : Word) (k : BitVec 2) (wa : BitVec 30),
    exec (.wrStatus wdata) s = .next s ∧ exec (.wrCap wdata) s = .next s ∧
    exec (.wrDigest k wdata) s = .next s ∧ exec (.wrRsvd wa wdata) s = .next s

/-- R148, R150, R156: `MSG_LEN`, `CAP` and reserved addresses as they read. -/
def Obligations.LengthCapacityAndReservedReads : Prop :=
  ∀ (s : State) (wa : BitVec 30),
    exec .rdMsgLen s = .next { s with rsp := s.rsp ++ [s.msgLen] } ∧
    exec (.rdRsvd wa) s = .next { s with rsp := s.rsp ++ [0] } ∧
    ∃ v : Word, exec .rdCap s = .next { s with rsp := s.rsp ++ [v] } ∧ v.toNat = s.params.maxMsgBytes.val

/-- R152: `RD_DIGEST k` reads `DIGESTk`; in every state of a run that is the finished digest word with `DONE = 1`, and
0 at every other time. -/
def Obligations.RdDigestReturnsDigestWord : Prop :=
  ∀ (s : State) (k : BitVec 2), ∃ v : Word, exec (.rdDigest k) s = .next { s with rsp := s.rsp ++ [v] } ∧
    v = (if k.toNat = 0 then s.digest.a else if k.toNat = 1 then s.digest.b
      else if k.toNat = 2 then s.digest.c else s.digest.d) ∧
    (RunInv s → v = if s.done then
      (if k.toNat = 0 then s.dig.a else if k.toNat = 1 then s.dig.b else if k.toNat = 2 then s.dig.c else s.dig.d)
      else 0)

/-- R149. -/
def Obligations.WrMsgLenStoresWhileIdle : Prop :=
  ∀ (s : State) (wdata : Word),
    (s.busy = true → exec (.wrMsgLen wdata) s = .next s) ∧
    (s.busy = false → exec (.wrMsgLen wdata) s = .next { s with msgLen := wdata })

/-- R142, R143, R144: the whole of `WR_CTRL`. -/
def Obligations.WrCtrlStartsRejectsOrEnables : Prop :=
  ∀ (s : State) (wdata : Word), exec (.wrCtrl wdata) s = .next (
    if 64 ≤ s.uop.toNat then s
    else if wdata.toNat % 2 = 0 then { s with obsEn := wdata.getLsbD 1 }
    else if s.msgLen.toNat ≤ s.params.maxMsgBytes.val then
      { s with
        obsEn := wdata.getLsbD 1, size := s.msgLen, obs := wdata.getLsbD 1
        dig := ⟨0x67452301, 0xefcdab89, 0x98badcfe, 0x10325476⟩
        digest := ⟨0, 0, 0, 0⟩, done := false, lenErr := false, uop := 0x040 }
    else { s with obsEn := wdata.getLsbD 1, digest := ⟨0, 0, 0, 0⟩, done := false, lenErr := true })

/-- R155, with its frame: the stored bytes are the four from `msgByteOffset w = 4w` on, and every other byte reads as
before. -/
def Obligations.WrMsgStoresLittleEndianBytes : Prop :=
  ∀ (s : State) (w : BitVec 29) (wdata : Word),
    ((s.params.maxMsgBytes.val + 3) / 4 ≤ w.toNat → exec (.wrMsg w wdata) s = .next s) ∧
    (s.busy = true → exec (.wrMsg w wdata) s = .next s) ∧
    (w.toNat < (s.params.maxMsgBytes.val + 3) / 4 → s.busy = false →
      ∃ t, exec (.wrMsg w wdata) s = .next t ∧ t = { s with msg := t.msg } ∧
        msgByteOffset w = 4 * w.toNat ∧ HoldsWord t.msg (msgByteOffset w) wdata ∧
        ∀ a, a < msgByteOffset w ∨ msgByteOffset w + 4 ≤ a → t.msg.read? a = s.msg.read? a)

/-- R154: in the window a read returns the little-endian word of the bytes at `4w .. 4w+3`, each the byte written last,
without a draw; where one was never written the read still completes, and changes nothing but what the host has read
(log 6) and the draws (logs 2 and 3). Beyond the window it returns 0. -/
def Obligations.RdMsgReturnsTheWrittenWord : Prop :=
  ∀ (s : State) (w : BitVec 29),
    ((s.params.maxMsgBytes.val + 3) / 4 ≤ w.toNat → exec (.rdMsg w) s = .next { s with rsp := s.rsp ++ [0] }) ∧
    (w.toNat < (s.params.maxMsgBytes.val + 3) / 4 →
      (∀ v, HoldsWord s.msg (4 * w.toNat) v → exec (.rdMsg w) s = .next { s with rsp := s.rsp ++ [v] }) ∧
      ∃ (v : Word) (d : Nat), exec (.rdMsg w) s = .next { s with rsp := s.rsp ++ [v], draws := d } ∧
        ∀ i < 4, ∀ x, s.msg.read? (4 * w.toNat + i) = some x → v.extractLsb' (8 * i) 8 = x)

/-- R154, R155: a word read after it was written is the word written, and a write of another word does not change what
a written word reads as. -/
def Obligations.MsgReadAfterWrite : Prop :=
  ∀ (s t : State) (w w' : BitVec 29) (wdata : Word),
    w.toNat < (s.params.maxMsgBytes.val + 3) / 4 → s.busy = false → exec (.wrMsg w wdata) s = .next t →
    exec (.rdMsg w) t = .next { t with rsp := t.rsp ++ [wdata] } ∧
    (w' ≠ w → ∀ v, HoldsWord s.msg (4 * w'.toNat) v → HoldsWord t.msg (4 * w'.toNat) v)

/-! ### The padder (41_padder.md) -/

/-- R82. -/
def Obligations.PadLenIsTheSmallestPositivePad : Prop :=
  ∀ size : Nat,
    padLen size = (if size % 64 < 56 then 56 - size % 64 else 120 - size % 64) ∧
    1 ≤ padLen size ∧ padLen size ≤ 64 ∧ (size + padLen size) % 64 = 56 ∧
    ∀ q, 0 < q → (size + q) % 64 = 56 → padLen size ≤ q

/-- R84, R5: the block count, four ways, and its bound. -/
def Obligations.BlockCountFormulas : Prop :=
  ∀ size : Nat,
    64 * blockCount size = size + padLen size + 8 ∧ blockCount size = (size + 9 + 63) / 64 ∧
    blockCount size = (size + padLen size + 63) / 64 ∧
    blockCount size = (size + 8) / 64 + 1 ∧ 1 ≤ blockCount size ∧
    ∀ p : Params, size ≤ p.maxMsgBytes.val → blockCount size ≤ (p.maxMsgBytes.val + 8) / 64 + 1

/-- R85, R86: with `EXACT` the two words are the exact 64-bit bit count; below `2^29` bytes both modes give an upper
word of 0; `ZERO` always does. -/
def Obligations.LengthFieldIsTheBitCount : Prop :=
  ∀ size : Nat,
    (lenLo size).toNat = 8 * size % 2 ^ 32 ∧ (lenHi .lenExact size).toNat = 8 * size / 2 ^ 32 % 2 ^ 32 ∧
    lenHi .lenZero size = 0 ∧
    (size ≤ 2 ^ 31 → 2 ^ 32 * (lenHi .lenExact size).toNat + (lenLo size).toNat = 8 * size ∧
      (lenHi .lenExact size).toNat = size / 2 ^ 29 ∧ (lenHi .lenExact size).toNat ≤ 4) ∧
    ∀ mode, size < 2 ^ 29 → lenHi mode size = 0

/-- R81, R83, R122: `PAD` completes in every state; it writes byte `i` of the buffer to `PadByte(size, i)` for every
`i < 64 * NB`, over a message whose written bytes are those of `MSG` (the others are draws, logs 2 and 3), leaves every other byte
(log 14), sets `NB`, `BLK` and `uop`, and with `OBS = 1` appends the PADDED record that shows the buffer. -/
def Obligations.PadBuildsThePaddedBuffer : Prop :=
  ∀ s : State, ∃ (t : State) (message : List Byte),
    exec .pad s = .next t ∧
    t = { s with pbuf := t.pbuf, nb := t.nb, blk := t.blk, uop := t.uop, obsch := t.obsch, draws := t.draws } ∧
    message.length = s.size.toNat ∧
    (∀ i (h : i < message.length) v, s.msg.read? i = some v → message[i] = v) ∧
    ((∀ i < s.size.toNat, (s.msg.read? i).isSome) → t.draws = s.draws) ∧
    64 * t.nb = s.size.toNat + padLen s.size.toNat + 8 ∧ t.blk = 0 ∧ t.uop = 0x080 ∧
    (∀ i < 64 * t.nb,
      t.pbuf.read? i = some (padByte s.params.lenHiMode s.size.toNat (fun k => message.getD k 0) i)) ∧
    (∀ i, 64 * t.nb ≤ i → t.pbuf.read? i = s.pbuf.read? i) ∧
    ∃ blocks : List (List Byte), t.obsch = s.obsch ++ (if s.obs then [.padded t.nb blocks] else []) ∧
      blocks.length = t.nb ∧ (∀ block ∈ blocks, block.length = 64) ∧
      ∀ b < t.nb, ∀ k < 64, (blocks.getD b [])[k]? = t.pbuf.read? (64 * b + k)

/-- R87: after `PAD` on a message whose bytes are written, the buffer's length, its marker byte, its length field, which
below `2^29` bytes decodes to the bit count, and the message bytes. -/
def Obligations.PaddedBufferInvariants : Prop :=
  ∀ (s : State) (message : List Byte), HoldsBytes s.msg message → s.size.toNat = message.length →
    ∃ t, exec .pad s = .next t ∧
      64 * t.nb = message.length + padLen message.length + 8 ∧
      t.pbuf.read? message.length = some 0x80 ∧
      HoldsWord t.pbuf (64 * t.nb - 8) (lenLo message.length) ∧
      HoldsWord t.pbuf (64 * t.nb - 4) (lenHi s.params.lenHiMode message.length) ∧
      (message.length < 2 ^ 29 →
        (lenLo message.length).toNat + 2 ^ 32 * (lenHi s.params.lenHiMode message.length).toNat = 8 * message.length) ∧
      HoldsBytes t.pbuf message

/-- R89: the padded buffer depends only on `SIZE` and the message bytes (and the parameter of R86). -/
def Obligations.PaddingDependsOnlyOnTheMessage : Prop :=
  ∀ (s s' : State), s.size = s'.size → s.params.lenHiMode = s'.params.lenHiMode →
    (∀ i < s.size.toNat, (s.msg.read? i).isSome ∧ s.msg.read? i = s'.msg.read? i) →
    ∃ t t', exec .pad s = .next t ∧ exec .pad s' = .next t' ∧ t.nb = t'.nb ∧
      ∀ i < 64 * t.nb, t.pbuf.read? i = t'.pbuf.read? i

/-! ### The block compressor (42_compressor.md) -/

/-- R94: the nonlinear functions are the truth tables `0xCA`, `0xE4`, `0x96`, `0x39`. -/
def Obligations.NonlinearFunctionsFollowTruthTables : Prop :=
  ∀ (x y z : Word) (i : Nat), i < 32 →
    let n := 4 * (x.getLsbD i).toNat + 2 * (y.getLsbD i).toNat + (z.getLsbD i).toNat
    (fnF x y z).getLsbD i = (0xCA#8).getLsbD n ∧ (fnG x y z).getLsbD i = (0xE4#8).getLsbD n ∧
    (fnH x y z).getLsbD i = (0x96#8).getLsbD n ∧ (fnI x y z).getLsbD i = (0x39#8).getLsbD n

/-- R97, R165: `rotl` in numbers, and the amounts it is given. -/
def Obligations.RotlRotatesLeft : Prop :=
  (∀ (x : Word) (n : Nat), n < 32 →
    (rotl x n).toNat = (x.toNat * 2 ^ n % 2 ^ 32) ||| (x.toNat / 2 ^ (32 - n)) ∧
    rotl x n = x.rotateLeft n ∧ rotl x 0 = x) ∧
  ∀ j : BitVec 6, 4 ≤ sAt j ∧ sAt j ≤ 23

/-- R28, R95: the rotation amounts and the message indices by their formulas, and within each round the index takes
every value once. -/
def Obligations.StepScheduleFollowsTheTables : Prop :=
  (∀ j : BitVec 6, sAt j =
    (([[7, 12, 17, 22], [5, 9, 14, 20], [4, 11, 16, 23], [6, 10, 15, 21]].getD (j.toNat / 16) []).getD (j.toNat % 4) 0)) ∧
  (∀ j : BitVec 6, msgIndex j =
    if j.toNat < 16 then j.toNat else if j.toNat < 32 then (5 * j.toNat + 1) % 16
    else if j.toNat < 48 then (3 * j.toNat + 5) % 16 else 7 * j.toNat % 16) ∧
  ∀ r < 4, ∀ g < 16, ∃ k < 16, msgIndex (BitVec.ofNat 6 (16 * r + k)) = g ∧
    ∀ k' < 16, msgIndex (BitVec.ofNat 6 (16 * r + k')) = g → k' = k

/-- R93, with its frame. `NB` is at least 1 in every state of a run (R19); what the test `BLK = NB - 1` says at `NB = 0`
is log 10 and not stated. -/
def Obligations.EntryLoadsWorkingRegisters : Prop :=
  ∀ s : State, ∃ t, exec .entry s = .next t ∧
    t = { s with work := s.dig, saved := t.saved, uop := 0x0C0 } ∧
    (1 ≤ s.nb → t.saved = if s.blk = s.nb - 1 then s.dig else s.saved)

/-- R98..R102, R123: the four `STEP` rows, each with its function, its message index and its range of steps. -/
def Obligations.StepsFollowTheStepRule : Prop :=
  StepRule .stepF 0 (fun x y z => (x &&& y) ||| (~~~x &&& z)) (fun j => j) ∧
  StepRule .stepG 16 (fun x y z => (x &&& z) ||| (y &&& ~~~z)) (fun j => (5 * j + 1) % 16) ∧
  StepRule .stepH 32 (fun x y z => x ^^^ y ^^^ z) (fun j => (3 * j + 5) % 16) ∧
  StepRule .stepI 48 (fun x y z => y ^^^ (x ||| ~~~z)) (fun j => 7 * j % 16)

/-- R103: the sums in numbers, the final block and the others, and the frame. What the test `BLK = NB - 1` says at
`NB = 0` is log 10 and not stated. -/
def Obligations.FoldAddsWorkingRegisters : Prop :=
  ∀ s : State, ∃ t, exec .fold s = .next t ∧
    t = { s with dig := t.dig, fin := t.fin, blk := t.blk, uop := t.uop } ∧
    t.dig.a.toNat = (s.dig.a.toNat + s.work.a.toNat) % 2 ^ 32 ∧
    t.dig.b.toNat = (s.dig.b.toNat + s.work.b.toNat) % 2 ^ 32 ∧
    t.dig.c.toNat = (s.dig.c.toNat + s.work.c.toNat) % 2 ^ 32 ∧
    t.dig.d.toNat = (s.dig.d.toNat + s.work.d.toNat) % 2 ^ 32 ∧
    (1 ≤ s.nb → s.blk = s.nb - 1 → t.fin = t.dig ∧ t.blk = s.blk ∧ t.uop = 0x140) ∧
    (1 ≤ s.nb → s.blk ≠ s.nb - 1 → t.fin = s.fin ∧ t.blk = s.blk + 1 ∧ t.uop = 0x080)

/-- R133, R124: the digest registers, `DONE`, idle again, and the FINAL record in numbers, with the frame. -/
def Obligations.FinalPacksTheDigest : Prop :=
  ∀ s : State, ∃ (t : State) (working : Quad) (digest : List Byte), exec .final s = .next t ∧
    t = { s with digest := s.dig, done := true, uop := 0x000, obsch := t.obsch } ∧
    t.obsch = s.obsch ++ (if s.obs then [.final working s.saved digest] else []) ∧
    working.a.toNat = (s.fin.a.toNat + 2 ^ 32 - s.saved.a.toNat) % 2 ^ 32 ∧
    working.b.toNat = (s.fin.b.toNat + 2 ^ 32 - s.saved.b.toNat) % 2 ^ 32 ∧
    working.c.toNat = (s.fin.c.toNat + 2 ^ 32 - s.saved.c.toNat) % 2 ^ 32 ∧
    working.d.toNat = (s.fin.d.toNat + 2 ^ 32 - s.saved.d.toNat) % 2 ^ 32 ∧
    digest.length = 16 ∧
    ∀ i < 4, (digest.getD i 0).toNat = s.dig.a.toNat / 2 ^ (8 * i) % 256 ∧
      (digest.getD (4 + i) 0).toNat = s.dig.b.toNat / 2 ^ (8 * i) % 256 ∧
      (digest.getD (8 + i) 0).toNat = s.dig.c.toNat / 2 ^ (8 * i) % 256 ∧
      (digest.getD (12 + i) 0).toNat = s.dig.d.toNat / 2 ^ (8 * i) % 256

/-- R134: the core leaves `HALT` only through an accepted START, which sets `uop <- PAD`. The rule gives the core at
`HALT` no step: that `HALT` answers the same state is the model's choice (log 8), as are the turns of `pending` (log 4). -/
def Obligations.HaltIsLeftOnlyThroughStart : Prop :=
  (∀ s : State, exec .halt s = .next s) ∧
  ∀ s t : State, s.uop = 0x000 → step s = .next t → t.uop ≠ 0x000 →
    t.uop = 0x040 ∧ s.msgLen.toNat ≤ s.params.maxMsgBytes.val ∧
    ∃ wdata rest, s.pending = .host 0x40000000 wdata :: rest ∧ wdata.getLsbD 0 = true

/-- R124, R132: at `FINAL` in every state of a run, the record's `working` is the last block's working registers, and
adding the saved registers back gives `A..D`. -/
def Obligations.FinalRecordReconstructsTheFold : Prop :=
  ∀ s : State, RunInv s → s.uop = 0x140 → s.obs = true → ∃ (t : State) (working : Quad) (digest : List Byte),
    exec .final s = .next t ∧ t.obsch = s.obsch ++ [.final working s.saved digest] ∧ working = s.work ∧
    s.dig = ⟨working.a + s.saved.a, working.b + s.saved.b, working.c + s.saved.c, working.d + s.saved.d⟩

/-- R106: every micro-operation does the same, as far as the observer does not enter it, with the observer on and off
and under every snapshot phase. -/
def Obligations.ObserverNeverFeedsTheCore : Prop :=
  ∀ (u : BitVec 10) (s s' : State), s.eraseObserver = s'.eraseObserver →
    ∃ t t', exec (decodeUop u) s = .next t ∧ exec (decodeUop u) s' = .next t' ∧
      t.eraseObserver = t'.eraseObserver

/-! ### Whole computations -/

/-- R105: `ENTRY`, the 64 steps and `FOLD` on a block compute the document's `Compress`. With `pending = []` this is the
interleaving of core steps alone (log 4). That `NB = 0` falls under the clause of the other blocks is the model's
reading, log 10. -/
def Obligations.BlockRunComputesCompress : Prop :=
  ∀ (s : State) (m : Nat → Word), s.uop = 0x080 → s.faultRec = none → s.pending = [] →
    (∀ k < 16, HoldsWord s.pbuf (64 * s.blk + 4 * k) (m k)) →
    ∃ t, Host.Core.run Sys2Proof.core 66 s = .next t ∧
      t = { s with dig := t.dig, work := t.work, saved := t.saved, fin := t.fin, blk := t.blk, uop := t.uop,
                   obsch := t.obsch } ∧
      t.dig = compress m s.dig ∧ t.work = workAfter m s.dig 64 ∧
      (s.blk + 1 = s.nb → t.uop = 0x140 ∧ t.blk = s.blk ∧ t.saved = s.dig ∧ t.fin = t.dig) ∧
      (s.blk + 1 ≠ s.nb → t.uop = 0x080 ∧ t.blk = s.blk + 1 ∧ t.saved = s.saved ∧ t.fin = s.fin)

/-- R183, R135, R105: an accepted START reaches the end of its computation after exactly `2 + 66*NB` core steps, with
`DONE` set, the core idle, and in `DIGEST0..3` the MD5 of the message, a function of its bytes alone. This is the
interleaving of core steps alone (log 4), which leaves what the host has read and the draws as they were;
EveryInterleavingComputesMd5 speaks of the others. -/
def Obligations.AcceptedStartComputesMd5 : Prop :=
  ∀ (s : State) (message : List Byte) (wdata : Word), StartReady s message wdata [] →
    ∃ t, Host.Core.run Sys2Proof.core (1 + (2 + 66 * ((message.length + 8) / 64 + 1))) s = .next t ∧
      t.digest = md5 s.params.lenHiMode message ∧ t.done = true ∧ t.lenErr = false ∧ t.uop = 0x000 ∧
      t.faultRec = none ∧ t.msg = s.msg ∧ t.msgLen = s.msgLen ∧ t.rsp = s.rsp ∧ t.draws = s.draws

/-- R55, R56, R135: every interleaving of the computation's core steps with host transactions, whatever the host does
meanwhile, leaves the MD5 of the message and what START set, and the message window as it was. The turns are the
model's form of an interleaving (log 4). -/
def Obligations.EveryInterleavingComputesMd5 : Prop :=
  ∀ (s : State) (message : List Byte) (wdata : Word) (turns : List Turn), StartReady s message wdata turns →
    (∀ turn ∈ turns, turn ≠ .reset) → turns.getLast? = some .core →
    turns.count .core = 2 + 66 * ((message.length + 8) / 64 + 1) →
    ∃ t, Host.Core.run Sys2Proof.core (1 + turns.length) s = .next t ∧
      t.digest = md5 s.params.lenHiMode message ∧ t.done = true ∧ t.lenErr = false ∧ t.uop = 0x000 ∧
      t.obsEn = wdata.getLsbD 1 ∧ t.faultRec = none ∧ t.msg = s.msg ∧ t.msgLen = s.msgLen ∧ t.pending = []

/-- R182, R76: the boot and use sequence of a message that fits, issued to an idle core, returns `DONE` to the poll and
then the four words of the message's MD5. The interleaving in which the core runs to its end before the poll is the
model's choice (log 17). -/
def Obligations.BootSequenceReturnsTheDigest : Prop :=
  ∀ (s : State) (message : List Byte) (observe : Bool), s.busy = false → s.faultRec = none →
    message.length ≤ s.params.maxMsgBytes.val → s.pending = digestTurns message observe →
    ∃ t, Host.Core.run Sys2Proof.core (digestTurns message observe).length s = .next t ∧ Ended t ∧
      let d := md5 s.params.lenHiMode message
      t.rsp = s.rsp ++ [2, d.a, d.b, d.c, d.d] ∧ HoldsBytes t.msg message

/-- R189, R185: before its last core step the computation has not ended: at every point of every interleaving, after
any turns without a reset that hold fewer than `2 + 66*NB` core steps, whatever turns `rest` follow, the core is busy,
`DONE` is 0 and the digest registers read 0. The turns are the model's form of an interleaving (log 4). -/
def Obligations.ComputationIsBusyUntilItsLastStep : Prop :=
  ∀ (s : State) (message : List Byte) (wdata : Word) (turns rest : List Turn),
    StartReady s message wdata (turns ++ rest) → (∀ turn ∈ turns, turn ≠ .reset) →
    turns.count .core < 2 + 66 * ((message.length + 8) / 64 + 1) →
    ∃ t, Host.Core.run Sys2Proof.core (1 + turns.length) s = .next t ∧ t.pending = rest ∧ t.busy = true ∧
      t.done = false ∧ t.digest = ⟨0, 0, 0, 0⟩ ∧ ¬ Ended t

/-- R132, R57: the records of one computation, under every interleaving with host transactions: with the observer on one
PADDED, then `4*NB` ROUND records whose round fields run 1, 2, 3, 4 for each block, then one FINAL; with it off none. The
turns are the model's form of an interleaving (log 4). -/
def Obligations.ComputationRecordsInOrder : Prop :=
  ∀ (s : State) (message : List Byte) (wdata : Word) (turns : List Turn), StartReady s message wdata turns →
    (∀ turn ∈ turns, turn ≠ .reset) → turns.getLast? = some .core →
    turns.count .core = 2 + 66 * ((message.length + 8) / 64 + 1) →
    ∃ t, Host.Core.run Sys2Proof.core (1 + turns.length) s = .next t ∧
      (wdata.getLsbD 1 = false → t.obsch = s.obsch) ∧
      (wdata.getLsbD 1 = true → ∃ (blocks : List (List Byte)) (regs : List Quad) (w v : Quad) (d : List Byte),
        regs.length = 4 * ((message.length + 8) / 64 + 1) ∧ d = (md5 s.params.lenHiMode message).bytes ∧
        t.obsch = s.obsch ++ [.padded ((message.length + 8) / 64 + 1) blocks] ++
          regs.mapIdx (fun i q => .round (i % 4 + 1) q.a q.b q.c q.d) ++ [.final w v d])

/-! ### Renderings (43_observer.md) -/

/-- R125, R126: binary numerals, most significant bit first, padded on the left to 8 and 32 characters. -/
def Obligations.BinaryNumeralsAreMsbFirst : Prop :=
  (∀ v : Byte, (bin8 v).length = 8 ∧ numeralValue 2 (bin8 v) = v.toNat ∧
    ∀ k < 8, (bin8 v)[k]? = some (if v.getLsbD (7 - k) then '1' else '0')) ∧
  ∀ w : Word, (bin32 w).length = 32 ∧ numeralValue 2 (bin32 w) = w.toNat ∧
    ∀ k < 32, (bin32 w)[k]? = some (if w.getLsbD (31 - k) then '1' else '0')

/-- R127: character `k` is the lowercase digit of `w[31-4k : 28-4k]`, so the numeral's value is the word. -/
def Obligations.Hex8IsTheHexNumeral : Prop :=
  ∀ w : Word, (hex8 w).length = 8 ∧ numeralValue 16 (hex8 w) = w.toNat ∧
    ∀ k < 8, (hex8 w)[k]? = "0123456789abcdef".toList[w.toNat / 16 ^ (7 - k) % 16]?

/-- R128: two digits per byte, in buffer order. -/
def Obligations.Hex32RendersBytesInOrder : Prop :=
  ∀ d : List Byte, (hex32 d).length = 2 * d.length ∧
    ∀ i < d.length, (hex32 d)[2 * i]? = "0123456789abcdef".toList[(d.getD i 0).toNat / 16]? ∧
      (hex32 d)[2 * i + 1]? = "0123456789abcdef".toList[(d.getD i 0).toNat % 16]?

/-- R129: a rendered PADDED record is its blocks' byte strings; the joined form of a block has 575 characters, its byte
strings with one space between neighbours. -/
def Obligations.PaddedRecordRendering : Prop :=
  (∀ (nb : Nat) (blocks : List (List Byte)),
    (ObsRecord.padded nb blocks).render = .onPadded (blocks.map fun block => block.map bin8)) ∧
  ∀ block : List Byte, block.length = 64 → (renderBlockJoined block).length = 575 ∧
    ∀ k < 64, (∀ i < 8, (renderBlockJoined block)[9 * k + i]? = (bin8 (block.getD k 0))[i]?) ∧
      (k < 63 → (renderBlockJoined block)[9 * k + 8]? = some ' ')

/-! ### Reset and the end of a run (70_reset_and_hazards.md) -/

/-- R180: the reset values the spec gives, at `State.reset`, and after a reset that comes at any time, which always
completes, abandons a computation, discards the records and the fault record, and keeps the machine's parameters. The
elements the table gives no value are the model's choice (log 1) and are not stated; nor is what log 5 keeps. -/
def Obligations.ResetGivesTheSpecsValues : Prop :=
  (HasResetValues State.reset ∧ State.reset.params = Config.params) ∧
  ∀ (s : State) (rest : List Turn), s.pending = .reset :: rest →
    ∃ t, step s = .next t ∧ HasResetValues t ∧ t.params = s.params ∧ t.pending = rest

/-- R189: an ended run stays ended: a further core step changes nothing but whose turn it is. R134 gives the core at
`HALT` no step; that a turn there is a step which changes nothing is the model's choice (log 8), as are the turns of
`pending` (log 4) and that a reset to come is no end (log 20). -/
def Obligations.EndedRunStaysEnded : Prop :=
  ∀ s : State, Ended s → ∃ t, step s = .next t ∧ t = { s with pending := s.pending.tail } ∧ Ended t

/-! ### The constant table and the other renderings -/

/-- R27: `K`, row by row as the table of the rule has it. -/
def Obligations.ConstantTableHoldsTheSpecsValues : Prop :=
  ∀ j : BitVec 6, kAt j =
    ((([[0xd76aa478, 0xe8c7b756, 0x242070db, 0xc1bdceee], [0xf57c0faf, 0x4787c62a, 0xa8304613, 0xfd469501],
        [0x698098d8, 0x8b44f7af, 0xffff5bb1, 0x895cd7be], [0x6b901122, 0xfd987193, 0xa679438e, 0x49b40821]] ++
       [[0xf61e2562, 0xc040b340, 0x265e5a51, 0xe9b6c7aa], [0xd62f105d, 0x02441453, 0xd8a1e681, 0xe7d3fbc8],
        [0x21e1cde6, 0xc33707d6, 0xf4d50d87, 0x455a14ed], [0xa9e3e905, 0xfcefa3f8, 0x676f02d9, 0x8d2a4c8a]] ++
       [[0xfffa3942, 0x8771f681, 0x6d9d6122, 0xfde5380c], [0xa4beea44, 0x4bdecfa9, 0xf6bb4b60, 0xbebfbc70],
        [0x289b7ec6, 0xeaa127fa, 0xd4ef3085, 0x04881d05], [0xd9d4d039, 0xe6db99e5, 0x1fa27cf8, 0xc4ac5665]] ++
       [[0xf4292244, 0x432aff97, 0xab9423a7, 0xfc93a039], [0x655b59c3, 0x8f0ccc92, 0xffeff47d, 0x85845dd1],
        [0x6fa87e4f, 0xfe2ce6e0, 0xa3014314, 0x4e0811a1], [0xf7537e82, 0xbd3af235, 0x2ad7d2bb, 0xeb86d391]]
      : List (List Word)).getD (j.toNat / 4) []).getD (j.toNat % 4) 0)

/-- R130, R131: a rendered ROUND record is its round and the binary numerals of its four registers; a rendered FINAL
record is the hexadecimal numerals of the working and the saved registers and the digest's string. -/
def Obligations.RoundAndFinalRecordRendering : Prop :=
  (∀ (r : Nat) (a b c d : Word), (ObsRecord.round r a b c d).render =
    .onRoundBoundary r (bin32 a) (bin32 b) (bin32 c) (bin32 d)) ∧
  ∀ (w v : Quad) (d : List Byte), (ObsRecord.final w v d).render =
    .onFinal (hex8 w.a) (hex8 w.b) (hex8 w.c) (hex8 w.d) (hex8 v.a) (hex8 v.b) (hex8 v.c) (hex8 v.d) (hex32 d)
end

