-- ==== Sys2Proof/Laws/State.lean ====
section
/-! SUPPORT. One lemma per field and named update of the state, each true by rfl, so that no proof unfolds a record
update. -/

namespace Sys2Proof.Machine

variable (s : State)

/-! ### `setUop` -/

@[simp] theorem setUop_uop (u : BitVec 10) : (s.setUop u).uop = u := rfl
@[simp] theorem setUop_blk (u : BitVec 10) : (s.setUop u).blk = s.blk := rfl
@[simp] theorem setUop_nb (u : BitVec 10) : (s.setUop u).nb = s.nb := rfl
@[simp] theorem setUop_size (u : BitVec 10) : (s.setUop u).size = s.size := rfl
@[simp] theorem setUop_obs (u : BitVec 10) : (s.setUop u).obs = s.obs := rfl
@[simp] theorem setUop_dig (u : BitVec 10) : (s.setUop u).dig = s.dig := rfl
@[simp] theorem setUop_work (u : BitVec 10) : (s.setUop u).work = s.work := rfl
@[simp] theorem setUop_saved (u : BitVec 10) : (s.setUop u).saved = s.saved := rfl
@[simp] theorem setUop_fin (u : BitVec 10) : (s.setUop u).fin = s.fin := rfl
@[simp] theorem setUop_obsEn (u : BitVec 10) : (s.setUop u).obsEn = s.obsEn := rfl
@[simp] theorem setUop_done (u : BitVec 10) : (s.setUop u).done = s.done := rfl
@[simp] theorem setUop_lenErr (u : BitVec 10) : (s.setUop u).lenErr = s.lenErr := rfl
@[simp] theorem setUop_msgLen (u : BitVec 10) : (s.setUop u).msgLen = s.msgLen := rfl
@[simp] theorem setUop_digest (u : BitVec 10) : (s.setUop u).digest = s.digest := rfl
@[simp] theorem setUop_msg (u : BitVec 10) : (s.setUop u).msg = s.msg := rfl
@[simp] theorem setUop_pbuf (u : BitVec 10) : (s.setUop u).pbuf = s.pbuf := rfl
@[simp] theorem setUop_obsch (u : BitVec 10) : (s.setUop u).obsch = s.obsch := rfl
@[simp] theorem setUop_faultRec (u : BitVec 10) : (s.setUop u).faultRec = s.faultRec := rfl
@[simp] theorem setUop_params (u : BitVec 10) : (s.setUop u).params = s.params := rfl
@[simp] theorem setUop_draws (u : BitVec 10) : (s.setUop u).draws = s.draws := rfl
@[simp] theorem setUop_pending (u : BitVec 10) : (s.setUop u).pending = s.pending := rfl
@[simp] theorem setUop_rsp (u : BitVec 10) : (s.setUop u).rsp = s.rsp := rfl

/-! ### `respond` -/

@[simp] theorem respond_uop (v : Word) : (s.respond v).uop = s.uop := rfl
@[simp] theorem respond_blk (v : Word) : (s.respond v).blk = s.blk := rfl
@[simp] theorem respond_nb (v : Word) : (s.respond v).nb = s.nb := rfl
@[simp] theorem respond_size (v : Word) : (s.respond v).size = s.size := rfl
@[simp] theorem respond_obs (v : Word) : (s.respond v).obs = s.obs := rfl
@[simp] theorem respond_dig (v : Word) : (s.respond v).dig = s.dig := rfl
@[simp] theorem respond_work (v : Word) : (s.respond v).work = s.work := rfl
@[simp] theorem respond_saved (v : Word) : (s.respond v).saved = s.saved := rfl
@[simp] theorem respond_fin (v : Word) : (s.respond v).fin = s.fin := rfl
@[simp] theorem respond_obsEn (v : Word) : (s.respond v).obsEn = s.obsEn := rfl
@[simp] theorem respond_done (v : Word) : (s.respond v).done = s.done := rfl
@[simp] theorem respond_lenErr (v : Word) : (s.respond v).lenErr = s.lenErr := rfl
@[simp] theorem respond_msgLen (v : Word) : (s.respond v).msgLen = s.msgLen := rfl
@[simp] theorem respond_digest (v : Word) : (s.respond v).digest = s.digest := rfl
@[simp] theorem respond_msg (v : Word) : (s.respond v).msg = s.msg := rfl
@[simp] theorem respond_pbuf (v : Word) : (s.respond v).pbuf = s.pbuf := rfl
@[simp] theorem respond_obsch (v : Word) : (s.respond v).obsch = s.obsch := rfl
@[simp] theorem respond_faultRec (v : Word) : (s.respond v).faultRec = s.faultRec := rfl
@[simp] theorem respond_params (v : Word) : (s.respond v).params = s.params := rfl
@[simp] theorem respond_draws (v : Word) : (s.respond v).draws = s.draws := rfl
@[simp] theorem respond_pending (v : Word) : (s.respond v).pending = s.pending := rfl
@[simp] theorem respond_rsp (v : Word) : (s.respond v).rsp = s.rsp ++ [v] := rfl

/-! ### `emit` -/

@[simp] theorem emit_uop (r : ObsRecord) : (s.emit r).uop = s.uop := rfl
@[simp] theorem emit_blk (r : ObsRecord) : (s.emit r).blk = s.blk := rfl
@[simp] theorem emit_nb (r : ObsRecord) : (s.emit r).nb = s.nb := rfl
@[simp] theorem emit_size (r : ObsRecord) : (s.emit r).size = s.size := rfl
@[simp] theorem emit_obs (r : ObsRecord) : (s.emit r).obs = s.obs := rfl
@[simp] theorem emit_dig (r : ObsRecord) : (s.emit r).dig = s.dig := rfl
@[simp] theorem emit_work (r : ObsRecord) : (s.emit r).work = s.work := rfl
@[simp] theorem emit_saved (r : ObsRecord) : (s.emit r).saved = s.saved := rfl
@[simp] theorem emit_fin (r : ObsRecord) : (s.emit r).fin = s.fin := rfl
@[simp] theorem emit_obsEn (r : ObsRecord) : (s.emit r).obsEn = s.obsEn := rfl
@[simp] theorem emit_done (r : ObsRecord) : (s.emit r).done = s.done := rfl
@[simp] theorem emit_lenErr (r : ObsRecord) : (s.emit r).lenErr = s.lenErr := rfl
@[simp] theorem emit_msgLen (r : ObsRecord) : (s.emit r).msgLen = s.msgLen := rfl
@[simp] theorem emit_digest (r : ObsRecord) : (s.emit r).digest = s.digest := rfl
@[simp] theorem emit_msg (r : ObsRecord) : (s.emit r).msg = s.msg := rfl
@[simp] theorem emit_pbuf (r : ObsRecord) : (s.emit r).pbuf = s.pbuf := rfl
@[simp] theorem emit_obsch (r : ObsRecord) : (s.emit r).obsch = if s.obs then s.obsch ++ [r] else s.obsch := rfl
@[simp] theorem emit_faultRec (r : ObsRecord) : (s.emit r).faultRec = s.faultRec := rfl
@[simp] theorem emit_params (r : ObsRecord) : (s.emit r).params = s.params := rfl
@[simp] theorem emit_draws (r : ObsRecord) : (s.emit r).draws = s.draws := rfl
@[simp] theorem emit_pending (r : ObsRecord) : (s.emit r).pending = s.pending := rfl
@[simp] theorem emit_rsp (r : ObsRecord) : (s.emit r).rsp = s.rsp := rfl

/-! ### `emitRound` -/

@[simp] theorem emitRound_uop (j : BitVec 6) : (s.emitRound j).uop = s.uop := rfl
@[simp] theorem emitRound_blk (j : BitVec 6) : (s.emitRound j).blk = s.blk := rfl
@[simp] theorem emitRound_nb (j : BitVec 6) : (s.emitRound j).nb = s.nb := rfl
@[simp] theorem emitRound_size (j : BitVec 6) : (s.emitRound j).size = s.size := rfl
@[simp] theorem emitRound_obs (j : BitVec 6) : (s.emitRound j).obs = s.obs := rfl
@[simp] theorem emitRound_dig (j : BitVec 6) : (s.emitRound j).dig = s.dig := rfl
@[simp] theorem emitRound_work (j : BitVec 6) : (s.emitRound j).work = s.work := rfl
@[simp] theorem emitRound_saved (j : BitVec 6) : (s.emitRound j).saved = s.saved := rfl
@[simp] theorem emitRound_fin (j : BitVec 6) : (s.emitRound j).fin = s.fin := rfl
@[simp] theorem emitRound_obsEn (j : BitVec 6) : (s.emitRound j).obsEn = s.obsEn := rfl
@[simp] theorem emitRound_done (j : BitVec 6) : (s.emitRound j).done = s.done := rfl
@[simp] theorem emitRound_lenErr (j : BitVec 6) : (s.emitRound j).lenErr = s.lenErr := rfl
@[simp] theorem emitRound_msgLen (j : BitVec 6) : (s.emitRound j).msgLen = s.msgLen := rfl
@[simp] theorem emitRound_digest (j : BitVec 6) : (s.emitRound j).digest = s.digest := rfl
@[simp] theorem emitRound_msg (j : BitVec 6) : (s.emitRound j).msg = s.msg := rfl
@[simp] theorem emitRound_pbuf (j : BitVec 6) : (s.emitRound j).pbuf = s.pbuf := rfl
@[simp] theorem emitRound_obsch (j : BitVec 6) : (s.emitRound j).obsch = if s.obs then s.obsch ++ [.round (roundOf j + 1) s.work.a s.work.b s.work.c s.work.d] else s.obsch := rfl
@[simp] theorem emitRound_faultRec (j : BitVec 6) : (s.emitRound j).faultRec = s.faultRec := rfl
@[simp] theorem emitRound_params (j : BitVec 6) : (s.emitRound j).params = s.params := rfl
@[simp] theorem emitRound_draws (j : BitVec 6) : (s.emitRound j).draws = s.draws := rfl
@[simp] theorem emitRound_pending (j : BitVec 6) : (s.emitRound j).pending = s.pending := rfl
@[simp] theorem emitRound_rsp (j : BitVec 6) : (s.emitRound j).rsp = s.rsp := rfl

/-! ### `raiseFault` -/

@[simp] theorem raiseFault_uop (f : Fault) : (s.raiseFault f).uop = s.uop := rfl
@[simp] theorem raiseFault_blk (f : Fault) : (s.raiseFault f).blk = s.blk := rfl
@[simp] theorem raiseFault_nb (f : Fault) : (s.raiseFault f).nb = s.nb := rfl
@[simp] theorem raiseFault_size (f : Fault) : (s.raiseFault f).size = s.size := rfl
@[simp] theorem raiseFault_obs (f : Fault) : (s.raiseFault f).obs = s.obs := rfl
@[simp] theorem raiseFault_dig (f : Fault) : (s.raiseFault f).dig = s.dig := rfl
@[simp] theorem raiseFault_work (f : Fault) : (s.raiseFault f).work = s.work := rfl
@[simp] theorem raiseFault_saved (f : Fault) : (s.raiseFault f).saved = s.saved := rfl
@[simp] theorem raiseFault_fin (f : Fault) : (s.raiseFault f).fin = s.fin := rfl
@[simp] theorem raiseFault_obsEn (f : Fault) : (s.raiseFault f).obsEn = s.obsEn := rfl
@[simp] theorem raiseFault_done (f : Fault) : (s.raiseFault f).done = s.done := rfl
@[simp] theorem raiseFault_lenErr (f : Fault) : (s.raiseFault f).lenErr = s.lenErr := rfl
@[simp] theorem raiseFault_msgLen (f : Fault) : (s.raiseFault f).msgLen = s.msgLen := rfl
@[simp] theorem raiseFault_digest (f : Fault) : (s.raiseFault f).digest = s.digest := rfl
@[simp] theorem raiseFault_msg (f : Fault) : (s.raiseFault f).msg = s.msg := rfl
@[simp] theorem raiseFault_pbuf (f : Fault) : (s.raiseFault f).pbuf = s.pbuf := rfl
@[simp] theorem raiseFault_obsch (f : Fault) : (s.raiseFault f).obsch = s.obsch := rfl
@[simp] theorem raiseFault_faultRec (f : Fault) : (s.raiseFault f).faultRec = some f := rfl
@[simp] theorem raiseFault_params (f : Fault) : (s.raiseFault f).params = s.params := rfl
@[simp] theorem raiseFault_draws (f : Fault) : (s.raiseFault f).draws = s.draws := rfl
@[simp] theorem raiseFault_pending (f : Fault) : (s.raiseFault f).pending = s.pending := rfl
@[simp] theorem raiseFault_rsp (f : Fault) : (s.raiseFault f).rsp = s.rsp := rfl

/-! ### `startAccepted` -/

@[simp] theorem startAccepted_uop : (s.startAccepted).uop = uopPad := rfl
@[simp] theorem startAccepted_blk : (s.startAccepted).blk = s.blk := rfl
@[simp] theorem startAccepted_nb : (s.startAccepted).nb = s.nb := rfl
@[simp] theorem startAccepted_size : (s.startAccepted).size = s.msgLen := rfl
@[simp] theorem startAccepted_obs : (s.startAccepted).obs = s.obsEn := rfl
@[simp] theorem startAccepted_dig : (s.startAccepted).dig = initialDigest := rfl
@[simp] theorem startAccepted_work : (s.startAccepted).work = s.work := rfl
@[simp] theorem startAccepted_saved : (s.startAccepted).saved = s.saved := rfl
@[simp] theorem startAccepted_fin : (s.startAccepted).fin = s.fin := rfl
@[simp] theorem startAccepted_obsEn : (s.startAccepted).obsEn = s.obsEn := rfl
@[simp] theorem startAccepted_done : (s.startAccepted).done = false := rfl
@[simp] theorem startAccepted_lenErr : (s.startAccepted).lenErr = false := rfl
@[simp] theorem startAccepted_msgLen : (s.startAccepted).msgLen = s.msgLen := rfl
@[simp] theorem startAccepted_digest : (s.startAccepted).digest = Quad.zero := rfl
@[simp] theorem startAccepted_msg : (s.startAccepted).msg = s.msg := rfl
@[simp] theorem startAccepted_pbuf : (s.startAccepted).pbuf = s.pbuf := rfl
@[simp] theorem startAccepted_obsch : (s.startAccepted).obsch = s.obsch := rfl
@[simp] theorem startAccepted_faultRec : (s.startAccepted).faultRec = s.faultRec := rfl
@[simp] theorem startAccepted_params : (s.startAccepted).params = s.params := rfl
@[simp] theorem startAccepted_draws : (s.startAccepted).draws = s.draws := rfl
@[simp] theorem startAccepted_pending : (s.startAccepted).pending = s.pending := rfl
@[simp] theorem startAccepted_rsp : (s.startAccepted).rsp = s.rsp := rfl

/-! ### `startRejected` -/

@[simp] theorem startRejected_uop : (s.startRejected).uop = s.uop := rfl
@[simp] theorem startRejected_blk : (s.startRejected).blk = s.blk := rfl
@[simp] theorem startRejected_nb : (s.startRejected).nb = s.nb := rfl
@[simp] theorem startRejected_size : (s.startRejected).size = s.size := rfl
@[simp] theorem startRejected_obs : (s.startRejected).obs = s.obs := rfl
@[simp] theorem startRejected_dig : (s.startRejected).dig = s.dig := rfl
@[simp] theorem startRejected_work : (s.startRejected).work = s.work := rfl
@[simp] theorem startRejected_saved : (s.startRejected).saved = s.saved := rfl
@[simp] theorem startRejected_fin : (s.startRejected).fin = s.fin := rfl
@[simp] theorem startRejected_obsEn : (s.startRejected).obsEn = s.obsEn := rfl
@[simp] theorem startRejected_done : (s.startRejected).done = false := rfl
@[simp] theorem startRejected_lenErr : (s.startRejected).lenErr = true := rfl
@[simp] theorem startRejected_msgLen : (s.startRejected).msgLen = s.msgLen := rfl
@[simp] theorem startRejected_digest : (s.startRejected).digest = Quad.zero := rfl
@[simp] theorem startRejected_msg : (s.startRejected).msg = s.msg := rfl
@[simp] theorem startRejected_pbuf : (s.startRejected).pbuf = s.pbuf := rfl
@[simp] theorem startRejected_obsch : (s.startRejected).obsch = s.obsch := rfl
@[simp] theorem startRejected_faultRec : (s.startRejected).faultRec = s.faultRec := rfl
@[simp] theorem startRejected_params : (s.startRejected).params = s.params := rfl
@[simp] theorem startRejected_draws : (s.startRejected).draws = s.draws := rfl
@[simp] theorem startRejected_pending : (s.startRejected).pending = s.pending := rfl
@[simp] theorem startRejected_rsp : (s.startRejected).rsp = s.rsp := rfl

/-! ### `readMsgWord` -/

@[simp] theorem readMsgWord_uop (w : BitVec 29) : (s.readMsgWord w).uop = s.uop := rfl
@[simp] theorem readMsgWord_blk (w : BitVec 29) : (s.readMsgWord w).blk = s.blk := rfl
@[simp] theorem readMsgWord_nb (w : BitVec 29) : (s.readMsgWord w).nb = s.nb := rfl
@[simp] theorem readMsgWord_size (w : BitVec 29) : (s.readMsgWord w).size = s.size := rfl
@[simp] theorem readMsgWord_obs (w : BitVec 29) : (s.readMsgWord w).obs = s.obs := rfl
@[simp] theorem readMsgWord_dig (w : BitVec 29) : (s.readMsgWord w).dig = s.dig := rfl
@[simp] theorem readMsgWord_work (w : BitVec 29) : (s.readMsgWord w).work = s.work := rfl
@[simp] theorem readMsgWord_saved (w : BitVec 29) : (s.readMsgWord w).saved = s.saved := rfl
@[simp] theorem readMsgWord_fin (w : BitVec 29) : (s.readMsgWord w).fin = s.fin := rfl
@[simp] theorem readMsgWord_obsEn (w : BitVec 29) : (s.readMsgWord w).obsEn = s.obsEn := rfl
@[simp] theorem readMsgWord_done (w : BitVec 29) : (s.readMsgWord w).done = s.done := rfl
@[simp] theorem readMsgWord_lenErr (w : BitVec 29) : (s.readMsgWord w).lenErr = s.lenErr := rfl
@[simp] theorem readMsgWord_msgLen (w : BitVec 29) : (s.readMsgWord w).msgLen = s.msgLen := rfl
@[simp] theorem readMsgWord_digest (w : BitVec 29) : (s.readMsgWord w).digest = s.digest := rfl
@[simp] theorem readMsgWord_msg (w : BitVec 29) : (s.readMsgWord w).msg = s.msg := rfl
@[simp] theorem readMsgWord_pbuf (w : BitVec 29) : (s.readMsgWord w).pbuf = s.pbuf := rfl
@[simp] theorem readMsgWord_obsch (w : BitVec 29) : (s.readMsgWord w).obsch = s.obsch := rfl
@[simp] theorem readMsgWord_faultRec (w : BitVec 29) : (s.readMsgWord w).faultRec = s.faultRec := rfl
@[simp] theorem readMsgWord_params (w : BitVec 29) : (s.readMsgWord w).params = s.params := rfl
@[simp] theorem readMsgWord_draws (w : BitVec 29) : (s.readMsgWord w).draws = (readWord s.msg s.draws (msgByteOffset w)).2 := rfl
@[simp] theorem readMsgWord_pending (w : BitVec 29) : (s.readMsgWord w).pending = s.pending := rfl
@[simp] theorem readMsgWord_rsp (w : BitVec 29) : (s.readMsgWord w).rsp = s.rsp ++ [(readWord s.msg s.draws (msgByteOffset w)).1] := rfl

/-! ### `writeMsgWord` -/

@[simp] theorem writeMsgWord_uop (w : BitVec 29) (v : Word) : (s.writeMsgWord w v).uop = s.uop := rfl
@[simp] theorem writeMsgWord_blk (w : BitVec 29) (v : Word) : (s.writeMsgWord w v).blk = s.blk := rfl
@[simp] theorem writeMsgWord_nb (w : BitVec 29) (v : Word) : (s.writeMsgWord w v).nb = s.nb := rfl
@[simp] theorem writeMsgWord_size (w : BitVec 29) (v : Word) : (s.writeMsgWord w v).size = s.size := rfl
@[simp] theorem writeMsgWord_obs (w : BitVec 29) (v : Word) : (s.writeMsgWord w v).obs = s.obs := rfl
@[simp] theorem writeMsgWord_dig (w : BitVec 29) (v : Word) : (s.writeMsgWord w v).dig = s.dig := rfl
@[simp] theorem writeMsgWord_work (w : BitVec 29) (v : Word) : (s.writeMsgWord w v).work = s.work := rfl
@[simp] theorem writeMsgWord_saved (w : BitVec 29) (v : Word) : (s.writeMsgWord w v).saved = s.saved := rfl
@[simp] theorem writeMsgWord_fin (w : BitVec 29) (v : Word) : (s.writeMsgWord w v).fin = s.fin := rfl
@[simp] theorem writeMsgWord_obsEn (w : BitVec 29) (v : Word) : (s.writeMsgWord w v).obsEn = s.obsEn := rfl
@[simp] theorem writeMsgWord_done (w : BitVec 29) (v : Word) : (s.writeMsgWord w v).done = s.done := rfl
@[simp] theorem writeMsgWord_lenErr (w : BitVec 29) (v : Word) : (s.writeMsgWord w v).lenErr = s.lenErr := rfl
@[simp] theorem writeMsgWord_msgLen (w : BitVec 29) (v : Word) : (s.writeMsgWord w v).msgLen = s.msgLen := rfl
@[simp] theorem writeMsgWord_digest (w : BitVec 29) (v : Word) : (s.writeMsgWord w v).digest = s.digest := rfl
@[simp] theorem writeMsgWord_msg (w : BitVec 29) (v : Word) : (s.writeMsgWord w v).msg = s.msg.writeBytes (msgByteOffset w) (bytesLE v) := rfl
@[simp] theorem writeMsgWord_pbuf (w : BitVec 29) (v : Word) : (s.writeMsgWord w v).pbuf = s.pbuf := rfl
@[simp] theorem writeMsgWord_obsch (w : BitVec 29) (v : Word) : (s.writeMsgWord w v).obsch = s.obsch := rfl
@[simp] theorem writeMsgWord_faultRec (w : BitVec 29) (v : Word) : (s.writeMsgWord w v).faultRec = s.faultRec := rfl
@[simp] theorem writeMsgWord_params (w : BitVec 29) (v : Word) : (s.writeMsgWord w v).params = s.params := rfl
@[simp] theorem writeMsgWord_draws (w : BitVec 29) (v : Word) : (s.writeMsgWord w v).draws = s.draws := rfl
@[simp] theorem writeMsgWord_pending (w : BitVec 29) (v : Word) : (s.writeMsgWord w v).pending = s.pending := rfl
@[simp] theorem writeMsgWord_rsp (w : BitVec 29) (v : Word) : (s.writeMsgWord w v).rsp = s.rsp := rfl

/-! ### `dropTurn` -/

@[simp] theorem dropTurn_uop : s.dropTurn.uop = s.uop := rfl
@[simp] theorem dropTurn_blk : s.dropTurn.blk = s.blk := rfl
@[simp] theorem dropTurn_nb : s.dropTurn.nb = s.nb := rfl
@[simp] theorem dropTurn_size : s.dropTurn.size = s.size := rfl
@[simp] theorem dropTurn_obs : s.dropTurn.obs = s.obs := rfl
@[simp] theorem dropTurn_dig : s.dropTurn.dig = s.dig := rfl
@[simp] theorem dropTurn_work : s.dropTurn.work = s.work := rfl
@[simp] theorem dropTurn_saved : s.dropTurn.saved = s.saved := rfl
@[simp] theorem dropTurn_fin : s.dropTurn.fin = s.fin := rfl
@[simp] theorem dropTurn_obsEn : s.dropTurn.obsEn = s.obsEn := rfl
@[simp] theorem dropTurn_done : s.dropTurn.done = s.done := rfl
@[simp] theorem dropTurn_lenErr : s.dropTurn.lenErr = s.lenErr := rfl
@[simp] theorem dropTurn_msgLen : s.dropTurn.msgLen = s.msgLen := rfl
@[simp] theorem dropTurn_digest : s.dropTurn.digest = s.digest := rfl
@[simp] theorem dropTurn_msg : s.dropTurn.msg = s.msg := rfl
@[simp] theorem dropTurn_pbuf : s.dropTurn.pbuf = s.pbuf := rfl
@[simp] theorem dropTurn_obsch : s.dropTurn.obsch = s.obsch := rfl
@[simp] theorem dropTurn_faultRec : s.dropTurn.faultRec = s.faultRec := rfl
@[simp] theorem dropTurn_params : s.dropTurn.params = s.params := rfl
@[simp] theorem dropTurn_draws : s.dropTurn.draws = s.draws := rfl
@[simp] theorem dropTurn_pending : s.dropTurn.pending = s.pending.tail := rfl
@[simp] theorem dropTurn_rsp : s.dropTurn.rsp = s.rsp := rfl

end Sys2Proof.Machine
end

