-- ==== Sys2Proof/Laws/Compressor.lean ====
section
/-! SUPPORT. All that one step of the compressor can do (R98): it writes the working registers and `uop`, may append
one ROUND record, and may draw. -/

namespace Sys2Proof.Machine

variable (s : State) (j : BitVec 6) (fn : Word → Word → Word → Word)

@[simp] theorem kTable_length : kTable.length = 64 := rfl
@[simp] theorem sTable_length : sTable.length = 64 := rfl

/-- The records a step appends. -/
def stepRecords : List ObsRecord :=
  let after := roundUpdate fn (kAt j) (msgWord s j).1 (sAt j) s.work
  if s.obs then
    match s.params.snapPhase with
    | .beforeFirst =>
      if stepInRound j = 0 then [.round (roundOf j + 1) s.work.a s.work.b s.work.c s.work.d] else []
    | .afterFirst => if stepInRound j = 0 then [.round (roundOf j + 1) after.a after.b after.c after.d] else []
    | .afterLast => if stepInRound j = 15 then [.round (roundOf j + 1) after.a after.b after.c after.d] else []
  else []

/-- The step as one record update. -/
theorem compressStep_eq :
    s.compressStep j fn =
      { s with
        work := roundUpdate fn (kAt j) (msgWord s j).1 (sAt j) s.work
        draws := (msgWord s j).2
        uop := afterStep j
        obsch := s.obsch ++ stepRecords s j fn } := by
  obtain ⟨p, hp⟩ : ∃ p, s.params.snapPhase = p := ⟨_, rfl⟩
  unfold State.compressStep stepRecords
  cases p <;> by_cases h0 : stepInRound j = 0 <;> by_cases h15 : stepInRound j = 15 <;> by_cases ho : s.obs = true <;>
    simp [hp, h0, h15, ho, State.setUop, State.emitRound, State.emit]

end Sys2Proof.Machine
end

