-- ==== Sys2Proof/Laws/Decode.lean ====
section
/-! SUPPORT. The masks of the opcode table as arithmetic on the words, and which instructions the host decoder can
give. -/

namespace Sys2Proof

/-! ### Words as numbers -/

theorem uopWord_toNat (op : BitVec 4) (j : BitVec 6) : (uopWord op j).toNat = 64 * op.toNat + j.toNat := by
  unfold uopWord
  rw [BitVec.toNat_append, Nat.shiftLeft_eq, Nat.mul_comm, ← Nat.two_pow_add_eq_or_of_lt j.isLt]

theorem hostHeader_toNat (we : BitVec 1) (wa : BitVec 30) :
    (hostHeader we wa).toNat = 2 ^ 30 * we.toNat + wa.toNat := by
  unfold hostHeader
  rw [BitVec.toNat_append, Nat.shiftLeft_eq, Nat.mul_comm, ← Nat.two_pow_add_eq_or_of_lt wa.isLt]

theorem msgAddress_toNat (w : BitVec 29) : (msgAddress w).toNat = 2 ^ 29 + w.toNat := by
  unfold msgAddress
  rw [BitVec.toNat_append, Nat.shiftLeft_eq, Nat.mul_comm, ← Nat.two_pow_add_eq_or_of_lt w.isLt]
  rfl

theorem digestAddress_toNat (k : BitVec 2) : (digestAddress k).toNat = 4 + k.toNat := by
  revert k; decide

theorem extract_zero_toNat {n : Nat} (h : BitVec n) (k : Nat) : h.extractLsb' 0 k = BitVec.ofNat k h.toNat := by
  apply BitVec.eq_of_toNat_eq; simp

/-! ### The masks of R71 -/

theorem and_mask_all (h : BitVec 31) : h &&& 0x7FFFFFFF#31 = h := by
  rw [show 0x7FFFFFFF#31 = BitVec.allOnes 31 from rfl, BitVec.and_allOnes]

theorem and_mask_digest (h : BitVec 31) : h &&& 0x7FFFFFFC#31 = (h >>> 2) <<< 2 := by
  ext i hi; interval_cases i <;> simp

theorem and_mask_msg (h : BitVec 31) : h &&& 0x60000000#31 = (h >>> 29) <<< 29 := by
  ext i hi; interval_cases i <;> simp

theorem and_mask_we (h : BitVec 31) : h &&& 0x40000000#31 = (h >>> 30) <<< 30 := by
  ext i hi; interval_cases i <;> simp

theorem and_mask_digest_eq (h : BitVec 31) (c : Nat) (hc : c < 2 ^ 29) :
    h &&& 0x7FFFFFFC#31 = BitVec.ofNat 31 (4 * c) ↔ h.toNat / 4 = c := by
  rw [and_mask_digest, ← BitVec.toNat_inj]
  simp only [BitVec.toNat_shiftLeft, BitVec.toNat_ushiftRight, Nat.shiftRight_eq_div_pow, Nat.shiftLeft_eq,
    BitVec.toNat_ofNat]
  have := h.isLt; omega

theorem and_mask_msg_eq (h : BitVec 31) (c : Nat) (hc : c < 4) :
    h &&& 0x60000000#31 = BitVec.ofNat 31 (2 ^ 29 * c) ↔ h.toNat / 2 ^ 29 = c := by
  rw [and_mask_msg, ← BitVec.toNat_inj]
  simp only [BitVec.toNat_shiftLeft, BitVec.toNat_ushiftRight, Nat.shiftRight_eq_div_pow, Nat.shiftLeft_eq,
    BitVec.toNat_ofNat]
  have := h.isLt; omega

theorem and_mask_we_eq (h : BitVec 31) (c : Nat) (hc : c < 2) :
    h &&& 0x40000000#31 = BitVec.ofNat 31 (2 ^ 30 * c) ↔ h.toNat / 2 ^ 30 = c := by
  rw [and_mask_we, ← BitVec.toNat_inj]
  simp only [BitVec.toNat_shiftLeft, BitVec.toNat_ushiftRight, Nat.shiftRight_eq_div_pow, Nat.shiftLeft_eq,
    BitVec.toNat_ofNat]
  have := h.isLt; omega

/-- The host decoder by the header as a number. -/
theorem decodeHost_eq (h : BitVec 31) (wdata : Word) : decodeHost h wdata =
    if h.toNat = 0 then .rdCtrl
    else if h.toNat = 0x40000000 then .wrCtrl wdata
    else if h.toNat = 1 then .rdStatus
    else if h.toNat = 0x40000001 then .wrStatus wdata
    else if h.toNat = 2 then .rdMsgLen
    else if h.toNat = 0x40000002 then .wrMsgLen wdata
    else if h.toNat = 3 then .rdCap
    else if h.toNat = 0x40000003 then .wrCap wdata
    else if h.toNat / 4 = 1 then .rdDigest (BitVec.ofNat 2 h.toNat)
    else if h.toNat / 4 = 0x10000001 then .wrDigest (BitVec.ofNat 2 h.toNat) wdata
    else if h.toNat / 2 ^ 29 = 1 then .rdMsg (BitVec.ofNat 29 h.toNat)
    else if h.toNat / 2 ^ 29 = 3 then .wrMsg (BitVec.ofNat 29 h.toNat) wdata
    else if h.toNat / 2 ^ 30 = 0 then .rdRsvd (BitVec.ofNat 30 h.toNat)
    else .wrRsvd (BitVec.ofNat 30 h.toNat) wdata := by
  have hc : ∀ c : BitVec 31, h = c ↔ h.toNat = c.toNat := fun c => BitVec.toNat_inj.symm
  unfold decodeHost
  simp only [and_mask_all, hc, ← and_mask_digest_eq h 1 (by decide), ← and_mask_digest_eq h 0x10000001 (by decide),
    ← and_mask_msg_eq h 1 (by decide), ← and_mask_msg_eq h 3 (by decide), ← and_mask_we_eq h 0 (by decide),
    extract_zero_toNat]
  rfl

/-- Case split over what the host decoder can give: what holds of every transaction with data word `v` holds of the
decoded one. -/
theorem decodeHost_induct (P : Instr → Prop) (h : BitVec 31) (v : Word) (rdCtrl : P .rdCtrl) (wrCtrl : P (.wrCtrl v))
    (rdStatus : P .rdStatus) (wrStatus : P (.wrStatus v)) (rdMsgLen : P .rdMsgLen) (wrMsgLen : P (.wrMsgLen v))
    (rdCap : P .rdCap) (wrCap : P (.wrCap v)) (rdDigest : ∀ k, P (.rdDigest k)) (wrDigest : ∀ k, P (.wrDigest k v))
    (rdMsg : ∀ w, P (.rdMsg w)) (wrMsg : ∀ w, P (.wrMsg w v)) (rdRsvd : ∀ wa, P (.rdRsvd wa))
    (wrRsvd : ∀ wa, P (.wrRsvd wa v)) : P (decodeHost h v) := by
  unfold decodeHost
  refine iteInduction (fun _ => rdCtrl) fun _ => ?_
  refine iteInduction (fun _ => wrCtrl) fun _ => ?_
  refine iteInduction (fun _ => rdStatus) fun _ => ?_
  refine iteInduction (fun _ => wrStatus) fun _ => ?_
  refine iteInduction (fun _ => rdMsgLen) fun _ => ?_
  refine iteInduction (fun _ => wrMsgLen) fun _ => ?_
  refine iteInduction (fun _ => rdCap) fun _ => ?_
  refine iteInduction (fun _ => wrCap) fun _ => ?_
  refine iteInduction (fun _ => rdDigest _) fun _ => ?_
  refine iteInduction (fun _ => wrDigest _) fun _ => ?_
  refine iteInduction (fun _ => rdMsg _) fun _ => ?_
  refine iteInduction (fun _ => wrMsg _) fun _ => ?_
  exact iteInduction (fun _ => rdRsvd _) fun _ => wrRsvd _

end Sys2Proof
end

