-- ==== Sys2Proof/Laws/Memory.lean ====
section
/-! SUPPORT. The laws of byte order and of the byte memories: reads after writes, and that every write keeps the
canonical form. -/

namespace Sys2Proof

/-! ### Byte order -/

@[simp] theorem bytesLE_length (w : Word) : (bytesLE w).length = 4 := rfl

theorem le32_extract (w : Word) :
    le32 (w.extractLsb' 0 8) (w.extractLsb' 8 8) (w.extractLsb' 16 8) (w.extractLsb' 24 8) = w := by
  unfold le32
  ext i hi
  simp only [BitVec.getElem_append, BitVec.getElem_extractLsb']
  split
  · simp [BitVec.getLsbD_eq_getElem, hi]
  · split
    · rw [BitVec.getLsbD_eq_getElem (by omega)]; congr 1; omega
    · split
      · rw [BitVec.getLsbD_eq_getElem (by omega)]; congr 1; omega
      · rw [BitVec.getLsbD_eq_getElem (by omega)]; congr 1; omega

end Sys2Proof

namespace Sys2Proof.Machine.Memory

variable (m : Memory)

/-! ### One byte -/

@[simp] theorem read_write_same (a : Nat) (v : Byte) : (m.write a v).read? a = some v := by
  induction m with
  | nil => simp [write, read?]
  | cons p m ih =>
    obtain ⟨k, x⟩ := p
    simp only [write]
    split
    · simp [read?]
    · split
      · simp [read?]
      · rw [read?, if_neg (by omega), ih]

theorem read_write_other {a b : Nat} (v : Byte) (h : b ≠ a) : (m.write a v).read? b = m.read? b := by
  induction m with
  | nil => simp [write, read?, h.symm]
  | cons p m ih =>
    obtain ⟨k, x⟩ := p
    simp only [write]
    split
    · simp [read?, h.symm]
    · split
      · rename_i hk; simp [read?, h.symm, ← hk]
      · simp [read?, ih]

/-- What a write can leave in a memory. -/
theorem mem_write {a : Nat} {v : Byte} {p : Host.Cell} (h : p ∈ m.write a v) : p ∈ m ∨ p.1 = a := by
  induction m with
  | nil => simp [write] at h; simp [h]
  | cons q m ih =>
    obtain ⟨k, x⟩ := q
    simp only [write] at h
    split at h
    · obtain rfl | h := List.mem_cons.1 h
      · exact .inr rfl
      · exact .inl h
    · split at h
      · obtain rfl | h := List.mem_cons.1 h
        · exact .inr rfl
        · exact .inl (List.mem_cons_of_mem _ h)
      · obtain rfl | h := List.mem_cons.1 h
        · exact .inl List.mem_cons_self
        · exact (ih h).imp (List.mem_cons_of_mem _) id

/-! ### The canonical form -/

/-- The canonical form as a pairwise order of the offsets. -/
theorem wf_iff_pairwise : m.wf = true ↔ m.Pairwise (fun p q => p.1 < q.1) := by
  induction m with
  | nil => simp [wf]
  | cons p m ih =>
    cases m with
    | nil => simp [wf]
    | cons q m =>
      rw [wf, Bool.and_eq_true, decide_eq_true_eq, ih]
      constructor
      · rintro ⟨hpq, hm⟩
        refine List.pairwise_cons.2 ⟨fun r hr => ?_, hm⟩
        obtain rfl | hr := List.mem_cons.1 hr
        · exact hpq
        · exact hpq.trans ((List.pairwise_cons.1 hm).1 r hr)
      · intro h
        exact ⟨(List.pairwise_cons.1 h).1 q List.mem_cons_self, (List.pairwise_cons.1 h).2⟩

theorem write_wf (a : Nat) (v : Byte) (h : m.wf = true) : (m.write a v).wf = true := by
  rw [wf_iff_pairwise] at h ⊢
  induction m with
  | nil => simp [write]
  | cons p m ih =>
    obtain ⟨k, x⟩ := p
    obtain ⟨hk, hm⟩ := List.pairwise_cons.1 h
    simp only [write]
    split
    · rename_i hak
      refine List.pairwise_cons.2 ⟨fun r hr => ?_, h⟩
      obtain rfl | hr := List.mem_cons.1 hr
      · exact hak
      · exact hak.trans (hk r hr)
    · split
      · rename_i hak
        exact List.pairwise_cons.2 ⟨fun r hr => hak ▸ hk r hr, hm⟩
      · refine List.pairwise_cons.2 ⟨fun r hr => ?_, ih hm⟩
        obtain hr | hr := mem_write m hr
        · exact hk r hr
        · simp only [hr]; omega

theorem read_eq_some_of_mem {p : Host.Cell} (h : m.wf = true) (hp : p ∈ m) : m.read? p.1 = some p.2 := by
  rw [wf_iff_pairwise] at h
  induction m with
  | nil => simp at hp
  | cons q m ih =>
    obtain ⟨k, x⟩ := q
    obtain rfl | hp := List.mem_cons.1 hp
    · simp [read?]
    · have := (List.pairwise_cons.1 h).1 p hp
      rw [read?, if_neg (by simp only at this; omega)]
      exact ih (List.pairwise_cons.1 h).2 hp

theorem mem_of_read_eq_some {a : Nat} {v : Byte} (h : m.read? a = some v) : (a, v) ∈ m := by
  induction m with
  | nil => simp [read?] at h
  | cons q m ih =>
    obtain ⟨k, x⟩ := q
    rw [read?] at h
    split at h
    · rename_i hk; cases h; simp [hk]
    · exact List.mem_cons_of_mem _ (ih h)

/-! ### Consecutive bytes -/

theorem read_writeBytes_outside {b : Nat} (vs : List Byte) :
    ∀ a, b < a ∨ a + vs.length ≤ b → (m.writeBytes a vs).read? b = m.read? b := by
  induction vs with
  | nil => intro a _; rfl
  | cons v vs ih =>
    intro a h
    simp only [List.length_cons] at h
    rw [writeBytes, read_write_other _ _ (by omega), ih (a + 1) (by omega)]

theorem read_writeBytes_inside (vs : List Byte) :
    ∀ a i (h : i < vs.length), (m.writeBytes a vs).read? (a + i) = some vs[i] := by
  induction vs with
  | nil => intro a i h; simp at h
  | cons v vs ih =>
    intro a i h
    cases i with
    | zero => simp [writeBytes]
    | succ i =>
      rw [writeBytes, read_write_other _ _ (by omega), show a + (i + 1) = a + 1 + i by omega,
        ih (a + 1) i (by simpa using h)]
      simp

theorem writeBytes_wf (vs : List Byte) (h : m.wf = true) : ∀ a, (m.writeBytes a vs).wf = true := by
  induction vs with
  | nil => intro a; exact h
  | cons v vs ih => intro a; exact write_wf _ _ _ (ih (a + 1))

theorem mem_writeBytes {p : Host.Cell} (vs : List Byte) :
    ∀ a, p ∈ m.writeBytes a vs → p ∈ m ∨ (a ≤ p.1 ∧ p.1 < a + vs.length) := by
  induction vs with
  | nil => intro a h; exact .inl h
  | cons v vs ih =>
    intro a h
    simp only [List.length_cons]
    obtain h | h := mem_write _ h
    · obtain h | h := ih (a + 1) h
      · exact .inl h
      · exact .inr (by omega)
    · exact .inr (by omega)

end Sys2Proof.Machine.Memory

namespace Sys2Proof.Machine

/-! ### Reads -/

theorem readByte_listed {m : Memory} {a : Nat} {v : Byte} (d : Nat) (h : m.read? a = some v) :
    readByte m d a = (v, d) := by simp [readByte, h]

theorem readByte_unlisted {m : Memory} {a : Nat} (d : Nat) (h : m.read? a = none) :
    readByte m d a = (Config.drawByte d, d + 1) := by simp [readByte, h]

@[simp] theorem readBytes_length (m : Memory) (n : Nat) : ∀ d a, (readBytes m d a n).1.length = n := by
  induction n with
  | zero => intro d a; rfl
  | succ n ih => intro d a; simp [readBytes, ih]

/-- Every byte that holds a value is read as it is. -/
theorem readBytes_getElem (m : Memory) (n : Nat) :
    ∀ d a i v (h : i < n), m.read? (a + i) = some v →
      (readBytes m d a n).1[i]'(by simpa using h) = v := by
  induction n with
  | zero => intro d a i v h; omega
  | succ n ih =>
    intro d a i v h hv
    cases i with
    | zero => simp [readBytes, readByte_listed d (show m.read? a = some v by simpa using hv)]
    | succ i =>
      simp only [readBytes, List.getElem_cons_succ]
      exact ih _ (a + 1) i v (by omega) (by rwa [show a + 1 + i = a + (i + 1) by omega])

/-- Bytes that all hold a value are read without a draw. -/
theorem readBytes_draws (m : Memory) (n : Nat) :
    ∀ d a, (∀ i < n, (m.read? (a + i)).isSome = true) → (readBytes m d a n).2 = d := by
  induction n with
  | zero => intro d a _; rfl
  | succ n ih =>
    intro d a h
    obtain ⟨v, hv⟩ := Option.isSome_iff_exists.1 (h 0 (by omega))
    simp only [readBytes, readByte_listed d (show m.read? a = some v by simpa using hv)]
    exact ih d (a + 1) fun i hi => by
      rw [show a + 1 + i = a + (i + 1) by omega]; exact h (i + 1) (by omega)

/-- A word whose four bytes hold values is their little-endian number, read without a draw. -/
theorem readWord_listed {m : Memory} {a : Nat} {b0 b1 b2 b3 : Byte} (d : Nat) (h0 : m.read? a = some b0)
    (h1 : m.read? (a + 1) = some b1) (h2 : m.read? (a + 2) = some b2) (h3 : m.read? (a + 3) = some b3) :
    readWord m d a = (le32 b0 b1 b2 b3, d) := by
  simp [readWord, readByte_listed _ h0, readByte_listed _ h1, readByte_listed _ h2, readByte_listed _ h3]

/-- The word last written is the word read. -/
theorem readWord_writeBytes (m : Memory) (d a : Nat) (w : Word) :
    readWord (m.writeBytes a (bytesLE w)) d a = (w, d) := by
  have h := Memory.read_writeBytes_inside m (bytesLE w) a
  rw [readWord_listed d (by simpa using h 0 (by simp)) (h 1 (by simp)) (h 2 (by simp)) (h 3 (by simp))]
  exact congrArg (·, d) (le32_extract w)

end Sys2Proof.Machine
end

