-- ==== Sys2Proof/Laws/Holds.lean ====
section
/-! SUPPORT. Reads of bytes that hold values: what they give, without a draw and whatever has been drawn before. -/

namespace Sys2Proof.Machine

/-- Byte `i` of a little-endian word. -/
theorem le32_byte (b0 b1 b2 b3 : Byte) :
    (le32 b0 b1 b2 b3).extractLsb' 0 8 = b0 ∧ (le32 b0 b1 b2 b3).extractLsb' 8 8 = b1 ∧
    (le32 b0 b1 b2 b3).extractLsb' 16 8 = b2 ∧ (le32 b0 b1 b2 b3).extractLsb' 24 8 = b3 := by
  unfold le32
  refine ⟨?_, ?_, ?_, ?_⟩ <;>
    (ext i hi
     simp only [BitVec.getElem_extractLsb', BitVec.getLsbD_append]
     interval_cases i <;> simp [BitVec.getLsbD_eq_getElem])

/-- A held word is the word read. -/
theorem readWord_holds {m : Memory} {a : Nat} {w : Word} (d : Nat) (h : HoldsWord m a w) :
    readWord m d a = (w, d) := by
  rw [readWord_listed d (by simpa using h 0 (by decide)) (h 1 (by decide)) (h 2 (by decide)) (h 3 (by decide))]
  exact congrArg (·, d) (le32_extract w)

/-- A held message is the message read. -/
theorem readBytes_holds {m : Memory} {message : List Byte} (d : Nat) (h : HoldsBytes m message) :
    readBytes m d 0 message.length = (message, d) := by
  refine Prod.ext (List.ext_getElem (by simp) fun i h1 h2 => ?_) (readBytes_draws _ _ _ _ fun i hi => ?_)
  · exact readBytes_getElem m _ d 0 i _ h2 (by rw [Nat.zero_add]; exact h i h2)
  · rw [Nat.zero_add, h i hi]; rfl

/-- What is read from bytes that hold values does not depend on the draws. -/
theorem readBytes_indep (m : Memory) (n : Nat) :
    ∀ a d d', (∀ i < n, (m.read? (a + i)).isSome = true) → readBytes m d a n = ((readBytes m d' a n).1, d) := by
  induction n with
  | zero => intros; rfl
  | succ n ih =>
    intro a d d' h
    obtain ⟨v, hv⟩ := Option.isSome_iff_exists.1 (h 0 (by omega))
    rw [Nat.add_zero] at hv
    simp only [readBytes, readByte_listed d hv, readByte_listed d' hv]
    rw [ih (a + 1) d d' fun i hi => by rw [show a + 1 + i = a + (i + 1) by omega]; exact h _ (by omega)]

theorem readWord_indep (m : Memory) (a d d' : Nat) (h : ∀ i < 4, (m.read? (a + i)).isSome = true) :
    readWord m d a = ((readWord m d' a).1, d) := by
  obtain ⟨v0, h0⟩ := Option.isSome_iff_exists.1 (h 0 (by omega))
  obtain ⟨v1, h1⟩ := Option.isSome_iff_exists.1 (h 1 (by omega))
  obtain ⟨v2, h2⟩ := Option.isSome_iff_exists.1 (h 2 (by omega))
  obtain ⟨v3, h3⟩ := Option.isSome_iff_exists.1 (h 3 (by omega))
  rw [Nat.add_zero] at h0
  rw [readWord_listed d h0 h1 h2 h3, readWord_listed d' h0 h1 h2 h3]

end Sys2Proof.Machine
end

