-- ==== Sys2Proof/Laws/Padder.lean ====
section
/-! SUPPORT. What the padder's functions give: the length and the bytes of the padded buffer. -/

namespace Sys2Proof.Machine

theorem padLen_pos (size : Nat) : 0 < padLen size := by
  unfold padLen; split <;> omega

@[simp] theorem padBytes_length (mode : LenHiMode) (size : Nat) (original : List Byte) :
    (padBytes mode size original).length = original.length + padLen size + 8 := by
  have := padLen_pos size
  simp [padBytes]; omega

theorem bytesLE_getElem (w : Word) (i : Nat) (h : i < 4) :
    (bytesLE w)[i]'(by simpa using h) = w.extractLsb' (8 * i) 8 := by
  interval_cases i <;> rfl

/-- The concatenation `PAD` writes is, byte by byte, `PadByte` of R83. -/
theorem padBytes_getElem (mode : LenHiMode) (original : List Byte) (i : Nat)
    (h : i < original.length + padLen original.length + 8) :
    (padBytes mode original.length original)[i]'(by simpa using h) =
      padByte mode original.length (fun k => original.getD k 0) i := by
  have hp := padLen_pos original.length
  simp only [padBytes, padByte]
  by_cases h1 : i < original.length
  · simp [h1]
  · rw [if_neg h1]
    by_cases h2 : i = original.length
    · simp [h2]
    · rw [if_neg h2]
      by_cases h3 : i < original.length + padLen original.length
      · rw [if_pos h3, List.getElem_append_left (by simp; omega), List.getElem_append_left (by simp; omega),
          List.getElem_append_right (by simp; omega), List.getElem_replicate]
      · rw [if_neg h3]
        by_cases h4 : i < original.length + padLen original.length + 4
        · rw [if_pos h4, List.getElem_append_left (by simp; omega), List.getElem_append_right (by simp; omega),
            bytesLE_getElem _ _ (by simp; omega)]
          congr 2; simp; omega
        · rw [if_neg h4, List.getElem_append_right (by simp; omega), bytesLE_getElem _ _ (by simp; omega)]
          congr 2; simp; omega

@[simp] theorem splitBlocks_length (nb : Nat) : ∀ bytes, (splitBlocks nb bytes).length = nb := by
  induction nb with
  | zero => intro bytes; rfl
  | succ nb ih => intro bytes; simp [splitBlocks, ih]

/-- Block `b` of a split buffer is its 64 bytes from offset `64 * b` on. -/
theorem splitBlocks_getElem (nb : Nat) : ∀ (bytes : List Byte) (b : Nat) (h : b < nb),
    (splitBlocks nb bytes)[b]'(by simpa using h) = (bytes.drop (64 * b)).take 64 := by
  induction nb with
  | zero => intro bytes b h; omega
  | succ nb ih =>
    intro bytes b h
    cases b with
    | zero => simp [splitBlocks]
    | succ b => simp [splitBlocks, ih _ b (by omega), List.drop_drop]; congr 2; omega

end Sys2Proof.Machine
end

