-- ==== Sys2Proof/Laws/PerInstr.lean ====
section
/-! SUPPORT. Per instruction: the words of a well-formed instruction match its own row of spec/opcode_table.json. -/

namespace Sys2Proof.Laws

/-- The mask and match words of an instruction's row (R64, R71). -/
inductive Row where
  | uop (mask matched : BitVec 10)
  | host (mask matched : BitVec 31)
  deriving DecidableEq, Repr

/-- The row of each instruction, as the table has it. -/
def rowOf : Instr → Row
  | .halt => .uop 0x3FF 0x000
  | .pad => .uop 0x3FF 0x040
  | .entry => .uop 0x3FF 0x080
  | .stepF _ => .uop 0x3F0 0x0C0
  | .stepG _ => .uop 0x3F0 0x0D0
  | .stepH _ => .uop 0x3F0 0x0E0
  | .stepI _ => .uop 0x3F0 0x0F0
  | .fold => .uop 0x3FF 0x100
  | .final => .uop 0x3FF 0x140
  | .reservedUop _ => .uop 0x000 0x000
  | .rdCtrl => .host 0x7FFFFFFF 0x00000000
  | .wrCtrl _ => .host 0x7FFFFFFF 0x40000000
  | .rdStatus => .host 0x7FFFFFFF 0x00000001
  | .wrStatus _ => .host 0x7FFFFFFF 0x40000001
  | .rdMsgLen => .host 0x7FFFFFFF 0x00000002
  | .wrMsgLen _ => .host 0x7FFFFFFF 0x40000002
  | .rdCap => .host 0x7FFFFFFF 0x00000003
  | .wrCap _ => .host 0x7FFFFFFF 0x40000003
  | .rdDigest _ => .host 0x7FFFFFFC 0x00000004
  | .wrDigest _ _ => .host 0x7FFFFFFC 0x40000004
  | .rdMsg _ => .host 0x60000000 0x20000000
  | .wrMsg _ _ => .host 0x60000000 0x60000000
  | .rdRsvd _ => .host 0x40000000 0x00000000
  | .wrRsvd _ _ => .host 0x40000000 0x40000000

/-- A word matches a row. -/
def matchesRow : Row → Fetched → Bool
  | .uop mask matched, .uop u => decide (u &&& mask = matched)
  | .host mask matched, .host h _ => decide (h &&& mask = matched)
  | .uop _ _, .host _ _ => false
  | .host _ _, .uop _ => false

/-- A well-formed instruction's words match its row. -/
def RowMatch.Statement (i : Instr) : Prop := i.wf = true → matchesRow (rowOf i) (encode i) = true

theorem wrDigest_matches (k : BitVec 2) :
    decide (hostHeader 1 (digestAddress k) &&& 0x7FFFFFFC = 0x40000004) = true := by
  revert k; decide

namespace RowMatch

theorem halt : Statement .halt := fun _ => rfl
theorem pad : Statement .pad := fun _ => rfl
theorem entry : Statement .entry := fun _ => rfl
theorem stepF (j : BitVec 6) : Statement (.stepF j) := by
  revert j; unfold Statement; decide
theorem stepG (j : BitVec 6) : Statement (.stepG j) := by
  revert j; unfold Statement; decide
theorem stepH (j : BitVec 6) : Statement (.stepH j) := by
  revert j; unfold Statement; decide
theorem stepI (j : BitVec 6) : Statement (.stepI j) := by
  revert j; unfold Statement; decide
theorem fold : Statement .fold := fun _ => rfl
theorem final : Statement .final := fun _ => rfl
theorem reservedUop (word : BitVec 10) : Statement (.reservedUop word) := fun _ => decide_eq_true BitVec.and_zero
theorem rdCtrl : Statement .rdCtrl := fun _ => rfl
theorem wrCtrl (wdata : Word) : Statement (.wrCtrl wdata) := fun _ => rfl
theorem rdStatus : Statement .rdStatus := fun _ => rfl
theorem wrStatus (wdata : Word) : Statement (.wrStatus wdata) := fun _ => rfl
theorem rdMsgLen : Statement .rdMsgLen := fun _ => rfl
theorem wrMsgLen (wdata : Word) : Statement (.wrMsgLen wdata) := fun _ => rfl
theorem rdCap : Statement .rdCap := fun _ => rfl
theorem wrCap (wdata : Word) : Statement (.wrCap wdata) := fun _ => rfl
theorem rdDigest (k : BitVec 2) : Statement (.rdDigest k) := by
  revert k; unfold Statement; decide
theorem wrDigest (k : BitVec 2) (wdata : Word) : Statement (.wrDigest k wdata) :=
  fun _ => wrDigest_matches k
theorem rdMsg (w : BitVec 29) : Statement (.rdMsg w) := fun _ => decide_eq_true <|
  (and_mask_msg_eq _ 1 (by decide)).2 (by rw [hostHeader_toNat, msgAddress_toNat]; have := w.isLt; simp; omega)
theorem wrMsg (w : BitVec 29) (wdata : Word) : Statement (.wrMsg w wdata) := fun _ => decide_eq_true <|
  (and_mask_msg_eq _ 3 (by decide)).2 (by rw [hostHeader_toNat, msgAddress_toNat]; have := w.isLt; simp; omega)
theorem rdRsvd (wa : BitVec 30) : Statement (.rdRsvd wa) := fun _ => decide_eq_true <|
  (and_mask_we_eq _ 0 (by decide)).2 (by rw [hostHeader_toNat]; have := wa.isLt; simp; omega)
theorem wrRsvd (wa : BitVec 30) (wdata : Word) : Statement (.wrRsvd wa wdata) := fun _ => decide_eq_true <|
  (and_mask_we_eq _ 1 (by decide)).2 (by rw [hostHeader_toNat]; have := wa.isLt; simp; omega)

end RowMatch

end Sys2Proof.Laws
end

