-- ==== Sys2Proof/Laws/Step.lean ====
section
/-! SUPPORT. All that a step can do, by whose turn it is (R55). -/

namespace Sys2Proof.Machine

variable {s t : State}

/-- An instruction always answers a next state: no meaning faults or refuses. -/
theorem exec_next (i : Instr) (s : State) : ∃ t, exec i s = .next t := by
  cases i <;> exact ⟨_, rfl⟩

/-- With no turn left, having one changes nothing. -/
theorem dropTurn_of_nil (hp : s.pending = []) : s.dropTurn = s := by
  cases s; simp only at hp; subst hp; rfl

/-- All that a host transaction can do: nothing, answer a read, or, of an idle core, write `MSG_LEN`, `CTRL` or a
message word. -/
theorem exec_host_cases (h : BitVec 31) (v : Word) (he : exec (decodeHost h v) s = .next t) :
    t = s ∨ (∃ r d, t = { s with rsp := s.rsp ++ [r], draws := d }) ∨
    (s.busy = false ∧ t = { s with msgLen := v }) ∨ (s.busy = false ∧ t = s.writeCtrl v) ∨
    (s.busy = false ∧ ∃ w : BitVec 29, w.toNat < msgWords s.params ∧ t = s.writeMsgWord w v) := by
  revert he
  refine decodeHost_induct (fun i => exec i s = .next t → _) h v ?rdCtrl ?wrCtrl ?rdStatus ?wrStatus ?rdMsgLen
    ?wrMsgLen ?rdCap ?wrCap ?rdDigest ?wrDigest ?rdMsg ?wrMsg ?rdRsvd ?wrRsvd
  case wrCtrl =>
    intro he
    have he := (Host.Outcome.next.inj he).symm
    split at he
    · exact .inl he
    · rename_i hb; exact .inr (.inr (.inr (.inl ⟨by simpa using hb, he⟩)))
  case wrMsgLen =>
    intro he
    have he := (Host.Outcome.next.inj he).symm
    split at he
    · exact .inl he
    · rename_i hb; exact .inr (.inr (.inl ⟨by simpa using hb, he⟩))
  case rdMsg =>
    intro w he
    have he := (Host.Outcome.next.inj he).symm
    split at he
    · exact .inr (.inl ⟨_, _, he⟩)
    · exact .inr (.inl ⟨_, s.draws, he⟩)
  case wrMsg =>
    intro w he
    have he := (Host.Outcome.next.inj he).symm
    split at he
    · exact .inl he
    · split at he
      · exact .inl he
      · rename_i hw hb; exact .inr (.inr (.inr (.inr ⟨by simpa using hb, w, by omega, he⟩)))
  all_goals
    intros
    rename_i he
    have he := (Host.Outcome.next.inj he).symm
    first | exact .inl he | exact .inr (.inl ⟨_, s.draws, he⟩)

theorem step_host {h : BitVec 31} {wdata : Word} {rest : List Turn} (hp : s.pending = .host h wdata :: rest) :
    step s = exec (decodeHost h wdata) s.dropTurn := by
  simp [step, State.takeTurn, hp, decode]

theorem step_reset {rest : List Turn} (hp : s.pending = .reset :: rest) :
    step s = .next s.dropTurn.afterReset := by
  simp [step, State.takeTurn, hp]

theorem takeTurn_core (ht : s.coreHasTurn) : s.takeTurn = s.dropTurn.coreTurn := by
  obtain hp | ⟨rest, hp⟩ := ht <;> simp [State.takeTurn, hp]

theorem step_core (ht : s.coreHasTurn) (hf : s.faultRec = none) :
    step s = exec (decodeUop s.uop) s.dropTurn := by
  have : s.dropTurn.faultRec = none := hf
  simp only [step, takeTurn_core ht, State.coreTurn, this]
  rfl

theorem step_core_faulted {f : Fault} (ht : s.coreHasTurn) (hf : s.faultRec = some f) : step s = .fault f := by
  have : s.dropTurn.faultRec = some f := hf
  simp only [step, takeTurn_core ht, State.coreTurn, this]

/-- Whose turn it is. -/
theorem turn_cases (s : State) :
    s.coreHasTurn ∨ (∃ h wdata rest, s.pending = .host h wdata :: rest) ∨ (∃ rest, s.pending = .reset :: rest) := by
  unfold State.coreHasTurn
  rcases hp : s.pending with _ | ⟨_ | ⟨h, w⟩ | _, rest⟩ <;> simp

/-- All that a step with a next state can be: a micro-operation of a core without a fault, a host transaction, or a
reset. -/
theorem step_cases (h : step s = .next t) :
    (s.coreHasTurn ∧ s.faultRec = none ∧ exec (decodeUop s.uop) s.dropTurn = .next t) ∨
    (∃ hd wdata rest, s.pending = .host hd wdata :: rest ∧ exec (decodeHost hd wdata) s.dropTurn = .next t) ∨
    (∃ rest, s.pending = .reset :: rest ∧ t = s.dropTurn.afterReset) := by
  obtain ht | ⟨hd, w, rest, hp⟩ | ⟨rest, hp⟩ := turn_cases s
  · cases hf : s.faultRec with
    | none => exact .inl ⟨ht, rfl, (step_core ht hf).symm.trans h⟩
    | some f => rw [step_core_faulted ht hf] at h; cases h
  · exact .inr (.inl ⟨hd, w, rest, hp, (step_host hp).symm.trans h⟩)
  · rw [step_reset hp] at h; cases h; exact .inr (.inr ⟨rest, hp, rfl⟩)

end Sys2Proof.Machine
end

