-- ==== Sys2Proof/Laws/Run.lean ====
section
/-! SUPPORT. Runs of the machine: what a run of no step, of one more step, and of two runs in a row is. -/

namespace Sys2Proof.Machine

/-- A run whose first step answers a next state goes on from it (for any machine of the host's interface). -/
theorem coreRun_succ (M : Host.Core) (n : Nat) (s t : M.State) (h : M.step s = .next t) :
    M.run (n + 1) s = M.run n t := by
  simp only [Host.Core.run, h]

/-- A run that ends in a next state began with one. -/
theorem coreRun_succ_inv (M : Host.Core) (n : Nat) (s u : M.State) (h : M.run (n + 1) s = .next u) :
    ∃ t, M.step s = .next t ∧ M.run n t = .next u := by
  cases hs : M.step s with
  | next t => exact ⟨t, rfl, coreRun_succ M n s t hs ▸ h⟩
  | fault r => simp [Host.Core.run, hs] at h
  | refused r => simp [Host.Core.run, hs] at h

/-- Runs compose. -/
theorem coreRun_add (M : Host.Core) (m n : Nat) : ∀ s t : M.State, M.run m s = .next t →
    M.run (m + n) s = M.run n t := by
  induction m with
  | zero =>
    intro s t h
    cases (show Host.Outcome.next s = Host.Outcome.next t from h)
    rw [Nat.zero_add]
  | succ m ih =>
    intro s t h
    obtain ⟨s', hs, h⟩ := coreRun_succ_inv M m s t h
    rw [show m + 1 + n = m + n + 1 by omega, coreRun_succ M (m + n) s s' hs]
    exact ih s' t h

variable {s t : State}

theorem run_zero (s : State) : Host.Core.run Sys2Proof.core 0 s = .next s := rfl

theorem run_succ (n : Nat) (h : step s = .next t) :
    Host.Core.run Sys2Proof.core (n + 1) s = Host.Core.run Sys2Proof.core n t :=
  coreRun_succ Sys2Proof.core n s t h

theorem run_add (m n : Nat) (h : Host.Core.run Sys2Proof.core m s = .next t) :
    Host.Core.run Sys2Proof.core (m + n) s = Host.Core.run Sys2Proof.core n t :=
  coreRun_add Sys2Proof.core m n s t h

end Sys2Proof.Machine
end

