-- ==== Sys2Proof/Laws/Sequencer.lean ====
section
/-! SUPPORT. The words the sequencer holds and writes: what they decode to, and the four STEP rows as one. -/

namespace Sys2Proof.Machine

/-- The four STEP rows are one step with the function of the round (R98). -/
theorem exec_stepPseudo (j : BitVec 6) (s : State) :
    exec (stepPseudo j) s = .next (s.compressStep j (fnOfRound (roundOf j))) := by
  unfold stepPseudo fnOfRound roundOf
  simp only
  split
  · rfl
  · split
    · rfl
    · split <;> rfl

set_option maxRecDepth 100000 in
/-- The word `0x0C0 + j` decodes to `STEP j`. -/
theorem decodeUop_step : ∀ j : BitVec 6, decodeUop (BitVec.ofNat 10 (0x0C0 + j.toNat)) = stepPseudo j := by
  decide +kernel

set_option maxRecDepth 100000 in
/-- What a word that is not reserved decodes to, by the word. -/
theorem decodeUop_cases : ∀ u : BitVec 10, reservedWord u = false →
    (u = 0x000 ∧ decodeUop u = .halt) ∨ (u = 0x040 ∧ decodeUop u = .pad) ∨ (u = 0x080 ∧ decodeUop u = .entry) ∨
    (u = 0x100 ∧ decodeUop u = .fold) ∨ (u = 0x140 ∧ decodeUop u = .final) ∨
    (u.extractLsb' 6 4 = 3 ∧ decodeUop u = stepPseudo (u.extractLsb' 0 6)) := by
  decide +kernel

set_option maxRecDepth 100000 in
/-- What follows a step: `FOLD` after the last, else the step with the next index. -/
theorem afterStep_cases : ∀ j : BitVec 6,
    (j.toNat = 63 ∧ afterStep j = 0x100) ∨ (j.toNat < 63 ∧ afterStep j = BitVec.ofNat 10 (0x0C0 + (j.toNat + 1))) := by
  decide +kernel

theorem msgIndex_lt : ∀ j : BitVec 6, msgIndex j < 16 := by
  decide +kernel

end Sys2Proof.Machine
end

