-- ==== Sys2Proof/Tests/Slice0.lean ====
section
/-! SUPPORT. Tests of the model, expected values from spec/ (the vectors of spec/95_test_vectors.md and the worked
examples of the rules), and a witness for the hypotheses of each statement that has some. -/

namespace Sys2Proof.Tests

open Sys2Proof.Machine

/-! ### WellFormed: an ill-formed term for each check -/

theorem test_wf_stepF_range : (Instr.stepF 15).wf = true ∧ (Instr.stepF 16).wf = false := by decide
theorem test_wf_stepG_range : (Instr.stepG 16).wf = true ∧ (Instr.stepG 31).wf = true ∧
    (Instr.stepG 15).wf = false ∧ (Instr.stepG 32).wf = false := by decide
theorem test_wf_stepH_range : (Instr.stepH 32).wf = true ∧ (Instr.stepH 47).wf = true ∧
    (Instr.stepH 31).wf = false ∧ (Instr.stepH 48).wf = false := by decide
theorem test_wf_stepI_range : (Instr.stepI 48).wf = true ∧ (Instr.stepI 63).wf = true ∧
    (Instr.stepI 47).wf = false := by decide
theorem test_wf_reservedUop_not_a_row : (Instr.reservedUop 0x000).wf = false ∧ (Instr.reservedUop 0x0FF).wf = false ∧
    (Instr.reservedUop 0x140).wf = false := by decide
/-- V11. -/
theorem test_wf_reservedUop : (Instr.reservedUop 0x180).wf = true ∧ (Instr.reservedUop 0x3FF).wf = true ∧
    (Instr.reservedUop 0x041).wf = true ∧ (Instr.reservedUop 0x101).wf = true := by decide
theorem test_wf_rdRsvd_range : (Instr.rdRsvd 8).wf = true ∧ (Instr.rdRsvd 0x1FFFFFFF).wf = true ∧
    (Instr.rdRsvd 7).wf = false ∧ (Instr.rdRsvd 0x20000000).wf = false := by decide
theorem test_wf_wrRsvd_range : (Instr.wrRsvd 8 1).wf = true ∧ (Instr.wrRsvd 0x1FFFFFFF 1).wf = true ∧
    (Instr.wrRsvd 7 1).wf = false ∧ (Instr.wrRsvd 0x20000000 1).wf = false := by decide

/-! ### Decode: words written out from R63, R64, R70, R71 -/

theorem test_decode_sequencer_rows :
    decodeUop 0b0000_000000 = .halt ∧ decodeUop 0b0001_000000 = .pad ∧ decodeUop 0b0010_000000 = .entry ∧
    decodeUop 0b0100_000000 = .fold ∧ decodeUop 0b0101_000000 = .final := by decide
theorem test_decode_step_rows :
    decodeUop 0b0011_000000 = .stepF 0 ∧ decodeUop 0b0011_001111 = .stepF 15 ∧
    decodeUop 0b0011_010000 = .stepG 16 ∧ decodeUop 0b0011_011111 = .stepG 31 ∧
    decodeUop 0b0011_100000 = .stepH 32 ∧ decodeUop 0b0011_101111 = .stepH 47 ∧
    decodeUop 0b0011_110000 = .stepI 48 ∧ decodeUop 0b0011_111111 = .stepI 63 := by decide
/-- V11. -/
theorem test_decode_reserved_words :
    decodeUop 0b0110_000000 = .reservedUop 0x180 ∧ decodeUop 0b1111_111111 = .reservedUop 0x3FF ∧
    decodeUop 0b0001_000001 = .reservedUop 0x041 ∧ decodeUop 0b0100_000001 = .reservedUop 0x101 := by decide
/-- V10. -/
theorem test_decode_register_reads :
    decodeHost 0x00000000 9 = .rdCtrl ∧ decodeHost 0x00000001 9 = .rdStatus ∧ decodeHost 0x00000002 9 = .rdMsgLen ∧
    decodeHost 0x00000003 9 = .rdCap ∧ decodeHost 0x00000004 9 = .rdDigest 0 ∧ decodeHost 0x00000006 9 = .rdDigest 2 ∧
    decodeHost 0x00000007 9 = .rdDigest 3 ∧ decodeHost 0x00000008 9 = .rdRsvd 8 := by decide
/-- V10. -/
theorem test_decode_register_writes :
    decodeHost 0x40000000 3 = .wrCtrl 3 ∧ decodeHost 0x40000001 7 = .wrStatus 7 ∧
    decodeHost 0x40000002 5 = .wrMsgLen 5 ∧ decodeHost 0x40000003 5 = .wrCap 5 ∧
    decodeHost 0x40000005 5 = .wrDigest 1 5 ∧ decodeHost 0x40000008 1 = .wrRsvd 8 1 ∧
    decodeHost 0x5FFFFFFF 1 = .wrRsvd 0x1FFFFFFF 1 := by decide
/-- V10, and the last word of the address space. -/
theorem test_decode_message_window :
    decodeHost 0x20000000 0 = .rdMsg 0 ∧ decodeHost 0x3FFFFFFF 0 = .rdMsg 0x1FFFFFFF ∧
    decodeHost 0x60000010 1 = .wrMsg 16 1 ∧ decodeHost 0x7FFFFFFF 1 = .wrMsg 0x1FFFFFFF 1 := by decide
/-- The table's numbering; a word beyond the 10 or 31 bits of its form is no encoded form. -/
theorem test_decodeTableWord :
    decodeTableWord 16 0x0D3 = some (.stepG 19) ∧ decodeTableWord 16 0x400 = none ∧
    decodeTableWord 32 0x40000001 = some (.wrStatus 0) ∧ decodeTableWord 32 0x80000000 = none ∧
    decodeTableWord 64 0x0000000340000000 = some (.wrCtrl 3) := by decide
/-- The host syntax of R76 and R75 (programs P1, P5). -/
theorem test_host_syntax :
    startObsTurns = [.host 0x40000000 3] ∧ rd (.reg (.digest 3)) = .host 0x00000007 0 ∧
    loadMsgTurns [0x61, 0x62, 0x63] = [.host 0x60000000 0x00636261, .host 0x40000002 3] ∧
    stepPseudo 19 = .stepG 19 := by decide

/-! ### Small states -/

/-- `MAX_MSG_BYTES = 64`, the default phase and mode. -/
def params64 : Params := ⟨64, .afterFirst, .lenExact⟩

/-- The state after reset of a machine with `MAX_MSG_BYTES = 64`. -/
def idle : State := { State.reset with params := params64 }

def iv : Quad := ⟨0x67452301, 0xefcdab89, 0x98badcfe, 0x10325476⟩

/-- The padded block of "abc" (worked example of R81). -/
def abcBlock : List Byte := [0x61, 0x62, 0x63, 0x80] ++ List.replicate 52 0 ++ [0x18] ++ List.replicate 7 0

/-- At the micro-operation `u` of the one block of "abc", observer on. -/
def abcAt (u : BitVec 10) (work : Quad) : State :=
  { idle with uop := u, nb := 1, size := 3, obs := true, obsEn := true, msgLen := 3, dig := iv, work := work,
              saved := iv, msg := [(0, 0x61), (1, 0x62), (2, 0x63)], pbuf := Memory.writeBytes [] 0 abcBlock }

/-- The state an instruction leads to. -/
def after (i : Instr) (s : State) : Option State :=
  match exec i s with
  | .next t => some t
  | .fault _ => none
  | .refused _ => none

/-- One of its fields. -/
def afterGet {α : Type} (f : State → α) (i : Instr) (s : State) : Option α := (after i s).map f

/-! ### One step of each micro-operation -/

/-- R134. -/
theorem test_halt_changes_nothing : after .halt idle = some idle := rfl
/-- R81, worked example: the padded block of "abc", and the PADDED record. -/
theorem test_pad_abc : afterGet (fun t => ((t.pbuf.map Prod.snd, t.nb, t.blk, t.uop), t.obsch)) .pad
    { abcAt 0x040 iv with pbuf := [] } =
    some ((abcBlock, 1, 0, 0x080), [.padded 1 [abcBlock]]) := by decide +kernel
/-- V1, `n = 55`, and `n = 56`: two blocks, `0x80` at byte 56, the length field `c0 01 00 ..`. -/
theorem test_pad_block_boundary :
    (padBytes .lenExact 55 (List.replicate 55 0x61)).drop 55 = [0x80, 0xb8, 0x01, 0, 0, 0, 0, 0, 0] ∧
    (padBytes .lenExact 56 (List.replicate 56 0x61)).length = 128 ∧
    (padBytes .lenExact 56 (List.replicate 56 0x61)).drop 120 = [0xc0, 0x01, 0, 0, 0, 0, 0, 0] := by decide +kernel
/-- R93, worked example. -/
theorem test_entry_loads : afterGet (fun t => (t.work, t.saved, t.uop)) .entry
    { abcAt 0x080 Quad.zero with saved := Quad.zero } = some (iv, iv, 0x0C0) := by decide
/-- R93: before the final block the saved registers stay. -/
theorem test_entry_not_final_block : afterGet (fun t => (t.work, t.saved)) .entry
    { abcAt 0x080 Quad.zero with saved := Quad.zero, nb := 2 } = some (iv, Quad.zero) := by decide
/-- R99, worked example, with its ROUND record (V6). -/
theorem test_stepF_abc : afterGet (fun t => (t.work, t.uop, t.obsch)) (.stepF 0) (abcAt 0x0C0 iv) =
    some (⟨0x10325476, 0xd6d117b4, 0xefcdab89, 0x98badcfe⟩, 0x0C1,
      [.round 1 0x10325476 0xd6d117b4 0xefcdab89 0x98badcfe]) := by decide +kernel
/-- R100, worked example. -/
theorem test_stepG_abc : afterGet (fun t => (t.work, t.uop, t.obsch)) (.stepG 16)
    (abcAt 0x0D0 ⟨0xdda9b9a6, 0x72aff2e0, 0xe396856b, 0xa1051895⟩) =
    some (⟨0xa1051895, 0x3e9e9126, 0x72aff2e0, 0xe396856b⟩, 0x0D1,
      [.round 2 0xa1051895 0x3e9e9126 0x72aff2e0 0xe396856b]) := by decide +kernel
/-- R101, worked example. -/
theorem test_stepH_abc : afterGet (fun t => (t.work, t.uop)) (.stepH 32)
    (abcAt 0x0E0 ⟨0x790a77fb, 0x726342d3, 0xa62884aa, 0x9f47e4f8⟩) =
    some (⟨0x9f47e4f8, 0xb3707ebf, 0x726342d3, 0xa62884aa⟩, 0x0E1) := by decide +kernel
/-- R102, worked example. -/
theorem test_stepI_abc : afterGet (fun t => (t.work, t.uop)) (.stepI 48)
    (abcAt 0x0F0 ⟨0x7f2e507b, 0x7beb9700, 0x8fae6399, 0x99d9679d⟩) =
    some (⟨0x99d9679d, 0x7b201df8, 0x7beb9700, 0x8fae6399⟩, 0x0F1) := by decide +kernel
/-- R98, R123: after the last step comes `FOLD`; `AFTER_LAST` records there, the other phases do not. -/
theorem test_stepI_last : afterGet (fun t => (t.uop, t.obsch.length)) (.stepI 63) (abcAt 0x0FF iv) = some (0x100, 0) ∧
    afterGet (fun t => t.obsch.length) (.stepI 63)
      { abcAt 0x0FF iv with params := ⟨64, .afterLast, .lenExact⟩ } = some 1 := by decide +kernel
/-- R103, worked example. -/
theorem test_fold_abc : afterGet (fun t => (t.dig, t.fin, t.blk, t.uop)) .fold
    (abcAt 0x100 ⟨0x310ade8f, 0xc08226b3, 0xe484b9d8, 0x624d8cb2⟩) =
    some (⟨0x98500190, 0xb04fd23c, 0x7d3f96d6, 0x727fe128⟩, ⟨0x98500190, 0xb04fd23c, 0x7d3f96d6, 0x727fe128⟩, 0,
      0x140) := by decide
/-- V5, `"a" x 56`: `FOLD` of block 0 goes on with block 1. -/
theorem test_fold_next_block : afterGet (fun t => (t.fin, t.blk, t.uop)) .fold { abcAt 0x100 iv with nb := 2 } =
    some (Quad.zero, 1, 0x080) := by decide
/-- R133, worked example. -/
theorem test_final_abc : afterGet (fun t => (t.digest, t.done, t.uop, t.obsch)) .final
    { abcAt 0x140 Quad.zero with
      dig := ⟨0x98500190, 0xb04fd23c, 0x7d3f96d6, 0x727fe128⟩
      fin := ⟨0x98500190, 0xb04fd23c, 0x7d3f96d6, 0x727fe128⟩ } =
    some (⟨0x98500190, 0xb04fd23c, 0x7d3f96d6, 0x727fe128⟩, true, 0x000,
      [.final ⟨0x310ade8f, 0xc08226b3, 0xe484b9d8, 0x624d8cb2⟩ iv
        [0x90, 0x01, 0x50, 0x98, 0x3c, 0xd2, 0x4f, 0xb0, 0xd6, 0x96, 0x3f, 0x7d, 0x28, 0xe1, 0x7f, 0x72]]) := by
  decide +kernel
/-- V11: the word is recorded, and `uop` is kept. -/
theorem test_reserved_uop : afterGet (fun t => (t.faultRec, t.uop)) (.reservedUop 0x180) { idle with uop := 0x180 } =
    some (some (.illegalUop 0x180), 0x180) := by decide

/-! ### One step of each host transaction (V10) -/

theorem test_rdCtrl : afterGet (fun t => t.rsp) .rdCtrl { idle with obsEn := true } = some [2] := by decide
theorem test_wrCtrl_accepts : afterGet (fun t => (t.obsEn, t.obs, t.size, t.dig, t.uop, t.statusWord)) (.wrCtrl 3)
    { idle with msgLen := 64, lenErr := true } = some (true, true, 64, iv, 0x040, 1) := by decide
theorem test_wrCtrl_rejects : afterGet (fun t => (t.statusWord, t.digest, t.uop)) (.wrCtrl 1)
    { idle with msgLen := 65, done := true, digest := iv } = some (4, Quad.zero, 0x000) := by decide
theorem test_rdStatus : afterGet (fun t => t.rsp) .rdStatus idle = some [0] ∧
    afterGet (fun t => t.rsp) .rdStatus { idle with lenErr := true, done := true, uop := 0x040 } = some [7] := by decide
theorem test_wrStatus : after (.wrStatus 7) idle = some idle := rfl
theorem test_rdMsgLen : afterGet (fun t => t.rsp) .rdMsgLen { idle with msgLen := 43 } = some [43] := by decide
theorem test_wrMsgLen : afterGet (fun t => t.msgLen) (.wrMsgLen 43) idle = some 43 ∧
    afterGet (fun t => t.msgLen) (.wrMsgLen 5) (abcAt 0x040 iv) = some 3 := by decide
theorem test_rdCap : afterGet (fun t => t.rsp) .rdCap idle = some [0x40] := by decide
theorem test_wrCap : after (.wrCap 1) idle = some idle := rfl
theorem test_rdDigest : afterGet (fun t => t.rsp) (.rdDigest 2) { idle with digest := iv } = some [0x98badcfe] := by
  decide
theorem test_wrDigest : after (.wrDigest 2 1) idle = some idle := rfl
theorem test_rdMsg : afterGet (fun t => t.rsp) (.rdMsg 0)
    { idle with msg := [(0, 0x61), (1, 0x62), (2, 0x63), (3, 0)] } = some [0x00636261] ∧
    afterGet (fun t => t.rsp) (.rdMsg 16) idle = some [0] := by decide
theorem test_wrMsg : afterGet (fun t => t.msg) (.wrMsg 0 0x00636261) idle =
      some [(0, 0x61), (1, 0x62), (2, 0x63), (3, 0)] ∧
    afterGet (fun t => t.msg) (.wrMsg 16 1) idle = some [] := by decide
theorem test_wrMsg_busy : afterGet (fun t => t.msg) (.wrMsg 0 0x11111111) (abcAt 0x040 iv) =
    some [(0, 0x61), (1, 0x62), (2, 0x63)] := by decide
theorem test_rdRsvd : afterGet (fun t => t.rsp) (.rdRsvd 8) idle = some [0] := by decide
theorem test_wrRsvd_is_no_start : after (.wrRsvd 8 1) { idle with msgLen := 3 } = some { idle with msgLen := 3 } := rfl

/-! ### Functions of the spec -/

/-- V2. -/
theorem test_nonlinear_functions :
    fnF 0x0f0f0f0f 0x33333333 0x55555555 = 0x53535353 ∧ fnG 0x0f0f0f0f 0x33333333 0x55555555 = 0x27272727 ∧
    fnH 0x0f0f0f0f 0x33333333 0x55555555 = 0x69696969 ∧ fnI 0x0f0f0f0f 0x33333333 0x55555555 = 0x9c9c9c9c := by decide
/-- V3. -/
theorem test_rotl : rotl 0x12345678 23 = 0x3c091a2b ∧ rotl 0xdeadbeef 7 = 0x56df77ef ∧
    rotl 0x80000000 1 = 1 ∧ rotl 0x12345678 0 = 0x12345678 := by decide
/-- V1, the length field at `2^29` and `2^31` bytes. -/
theorem test_length_field : lenLo 536870911 = 0xfffffff8 ∧ lenHi .lenExact 536870911 = 0 ∧
    lenLo 536870912 = 0 ∧ lenHi .lenExact 536870912 = 1 ∧ lenHi .lenExact 2147483648 = 4 ∧
    lenHi .lenZero 2147483648 = 0 := by decide
/-- V1, the sizes the parameters give. -/
theorem test_parameter_sizes : msgWords ⟨0, .afterFirst, .lenExact⟩ = 0 ∧ nbMax ⟨0, .afterFirst, .lenExact⟩ = 1 ∧
    msgWords ⟨55, .afterFirst, .lenExact⟩ = 14 ∧ nbMax ⟨56, .afterFirst, .lenExact⟩ = 2 ∧
    msgWords ⟨2147483648, .afterFirst, .lenExact⟩ = 2 ^ 29 ∧
    nbMax ⟨2147483648, .afterFirst, .lenExact⟩ = 2 ^ 25 + 1 := by decide
/-- T1. -/
theorem test_md5_empty : md5 .lenExact [] = ⟨0xd98c1dd4, 0x04b2008f, 0x980980e9, 0x7e42f8ec⟩ := by decide +kernel
/-- T1. -/
theorem test_md5_abc : md5 .lenExact [0x61, 0x62, 0x63] = ⟨0x98500190, 0xb04fd23c, 0x7d3f96d6, 0x727fe128⟩ := by
  decide +kernel
/-- V9. -/
theorem test_renderings : bin8 0x61 = "01100001".toList ∧ bin32 0x10325476 = "00010000001100100101010001110110".toList ∧
    hex8 0x02441453 = "02441453".toList ∧
    hex32 (bytesLE 0x98500190) = "90015098".toList := by decide +kernel
theorem test_renderBlockJoined : (renderBlockJoined abcBlock).length = 575 ∧
    (renderBlockJoined abcBlock).take 26 = "01100001 01100010 01100011".toList := by decide +kernel

/-! ### Witnesses of the statements' hypotheses -/

/-- DecodeOfEncodeIsInstr. -/
theorem witness_wf : (Instr.stepF 0).wf = true ∧ (Instr.stepI 63).wf = true ∧ (Instr.reservedUop 0x3FF).wf = true ∧
    (Instr.wrRsvd 8 1).wf = true ∧ (Instr.rdMsg 0x1FFFFFFF).wf = true := by decide

/-- HostHeadersFollowTheAddressMap: the first message word beyond the window. -/
theorem witness_beyond_window : (idle.params.maxMsgBytes.val + 3) / 4 ≤ (16 : BitVec 29).toNat := by decide

/-- StepRunsDecodedInstruction, the core's turn and the host's. -/
theorem witness_step_core : decode (.uop (abcAt 0x0D3 iv).uop) = .stepG 19 ∧ (Instr.stepG 19).wf = true ∧
    (abcAt 0x0D3 iv).coreHasTurn ∧ (abcAt 0x0D3 iv).faultRec = none := ⟨by decide, by decide, .inl rfl, rfl⟩
theorem witness_step_host : State.pending { idle with pending := [.host 0x40000000 3] } = .host 0x40000000 3 :: [] ∧
    decode (.host 0x40000000 3) = .wrCtrl 3 ∧ (Instr.wrCtrl 3).wf = true := ⟨rfl, by decide, by decide⟩

/-- PlacedWordRunsNext. -/
theorem witness_table_word : decodeTableWord 16 0x0FF = some (.stepI 63) ∧
    decodeTableWord 32 0x20000000 = some (.rdMsg 0) := by decide

/-- The invariant at the first state of a machine of 64 bytes, and at each class of a computation it says most of. -/
theorem witness_inv_idle : RunInv idle := by constructor <;> decide
theorem witness_inv_entry : RunInv (abcAt 0x080 Quad.zero) := by constructor <;> decide +kernel
theorem witness_inv_step : RunInv (abcAt 0x0D0 Quad.zero) := by constructor <;> decide +kernel
theorem witness_inv_fold : RunInv (abcAt 0x100 Quad.zero) := by constructor <;> decide +kernel

/-- The state before `FINAL` of "abc". -/
def abcFinal : State :=
  { abcAt 0x140 ⟨0x310ade8f, 0xc08226b3, 0xe484b9d8, 0x624d8cb2⟩ with
    dig := ⟨0x98500190, 0xb04fd23c, 0x7d3f96d6, 0x727fe128⟩
    fin := ⟨0x98500190, 0xb04fd23c, 0x7d3f96d6, 0x727fe128⟩ }

/-- FinalRecordReconstructsTheFold. -/
theorem witness_inv_final : RunInv abcFinal ∧ abcFinal.uop = 0x140 ∧ abcFinal.obs = true :=
  ⟨by constructor <;> decide +kernel, rfl, rfl⟩

/-- RdDigestReturnsDigestWord: the finished state of "abc", with `DONE`. -/
theorem witness_inv_done : RunInv { abcFinal with uop := 0x000, done := true, digest := abcFinal.dig } := by
  constructor <;> decide +kernel

/-- StepKeepsInv, InvRunsForever. -/
theorem witness_step_next : RunInv (abcAt 0x080 Quad.zero) ∧
    step (abcAt 0x080 Quad.zero) = .next { abcAt 0x0C0 iv with pending := [] } :=
  ⟨witness_inv_entry, by rw [step_core (.inl rfl) rfl]; rfl⟩

/-- ReservedWordRecordsIllegalUop: the first and the last reserved word, and those next to `PAD` and `FINAL`. -/
theorem witness_reserved_words : (0x180 : BitVec 10) = uopWord 6 0 ∧ (0x3FF : BitVec 10) = uopWord 15 63 ∧
    (0x041 : BitVec 10) = uopWord 1 1 ∧ (0x17F : BitVec 10) = uopWord 5 63 ∧
    (∀ u, State.coreHasTurn { idle with uop := u }) ∧ idle.faultRec = none :=
  ⟨rfl, rfl, rfl, rfl, fun _ => .inl rfl, rfl⟩
/-- ReservedWordRecordsIllegalUop: the faulted state, at the core's turn and at a host's. -/
theorem witness_faulted : let s : State := { idle with faultRec := some (.illegalUop 0x180) }
    s.faultRec = some (.illegalUop 0x180) ∧ s.coreHasTurn ∧
    State.pending { s with pending := [.host 0x40000000 1] } = .host 0x40000000 1 :: [] := ⟨rfl, .inl rfl, rfl⟩

/-- ElementsChangeOnlyByTheirWriters: instructions that complete and change elements. -/
theorem witness_writers : exec (.wrMsgLen 3) idle = .next { idle with msgLen := 3 } ∧
    ({ idle with msgLen := 3 } : State).msgLen ≠ idle.msgLen ∧
    exec (.reservedUop 0x180) idle = .next { idle with faultRec := some (.illegalUop 0x180) } ∧
    exec .entry (abcAt 0x080 Quad.zero) = .next (abcAt 0x0C0 iv) ∧
    (abcAt 0x0C0 iv).work ≠ (abcAt 0x080 Quad.zero).work :=
  ⟨rfl, by decide, rfl, rfl, by decide⟩

/-- ObserverChannelOnlyGrows: with the observer on and off. -/
theorem witness_observer_channel : ∃ t, step abcFinal = .next t ∧ (∀ rest, abcFinal.pending ≠ .reset :: rest) :=
  ⟨_, step_core (.inl rfl) rfl, by intro rest h; cases h⟩
theorem witness_observer_off : ∃ t, step { abcFinal with obs := false } = .next t ∧
    State.obs { abcFinal with obs := false } = false := ⟨_, step_core (.inl rfl) rfl, rfl⟩

/-- HostCannotDisturbAComputation, and the busy clauses of WrMsgLenStoresWhileIdle and WrMsgStoresLittleEndianBytes. -/
theorem witness_busy : (abcAt 0x040 iv).busy = true ∧ idle.busy = false := by decide

/-- WrMsgStoresLittleEndianBytes, MsgReadAfterWrite: the last word of the window, and a write of it. -/
theorem witness_window : (15 : BitVec 29).toNat < (idle.params.maxMsgBytes.val + 3) / 4 ∧ idle.busy = false ∧
    exec (.wrMsg 15 1) idle = .next { idle with msg := [(60, 1), (61, 0), (62, 0), (63, 0)] } ∧
    (15 : BitVec 29) ≠ 14 := ⟨by decide, by decide, rfl, by decide⟩
/-- RdMsgReturnsTheWrittenWord, MsgReadAfterWrite: a written word. -/
theorem witness_holds_word : HoldsWord [(56, 4), (57, 3), (58, 2), (59, 1)] (4 * (14 : BitVec 29).toNat) 0x01020304 := by
  unfold HoldsWord; decide
theorem witness_read_byte : Memory.read? [(56, 4), (57, 3), (58, 2)] (4 * (14 : BitVec 29).toNat + 2) = some 2 := by
  decide

/-- PadLenIsTheSmallestPositivePad, at the sizes where its two cases meet. -/
theorem witness_pad_lengths : (55 + 1) % 64 = 56 ∧ (56 + 64) % 64 = 56 ∧ padLen 55 = 1 ∧ padLen 56 = 64 ∧
    padLen 63 = 57 ∧ padLen 64 = 56 := by decide
/-- BlockCountFormulas, LengthFieldIsTheBitCount: the largest sizes. -/
theorem witness_sizes : 64 ≤ params64.maxMsgBytes.val ∧ blockCount 64 = 2 ∧ (2147483648 : Nat) ≤ 2 ^ 31 ∧
    (536870911 : Nat) < 2 ^ 29 := by decide

/-- PadBuildsThePaddedBuffer, PaddingDependsOnlyOnTheMessage: a message of three written bytes, in two states that
differ elsewhere. -/
theorem witness_padded_message : let s := abcAt 0x040 iv
    let s' : State := { s with obs := false, work := Quad.zero, pbuf := [] }
    s.size = s'.size ∧ s.params.lenHiMode = s'.params.lenHiMode ∧
    (∀ i < s.size.toNat, (s.msg.read? i).isSome ∧ s.msg.read? i = s'.msg.read? i) := by decide

/-- StepsFollowTheStepRule: the first and the last index of each row, and a message word in the buffer. -/
theorem witness_step_ranges : (0 ≤ (0 : BitVec 6).toNat ∧ (15 : BitVec 6).toNat < 0 + 16) ∧
    (16 ≤ (16 : BitVec 6).toNat ∧ (31 : BitVec 6).toNat < 16 + 16) ∧
    (32 ≤ (32 : BitVec 6).toNat ∧ (47 : BitVec 6).toNat < 32 + 16) ∧
    (48 ≤ (48 : BitVec 6).toNat ∧ (63 : BitVec 6).toNat < 48 + 16) := by decide
theorem witness_message_word : HoldsWord (abcAt 0x0F0 iv).pbuf (64 * 0 + 4 * (7 * 48 % 16)) 0x80636261 := by
  unfold HoldsWord; decide +kernel

/-- EntryLoadsWorkingRegisters, FoldAddsWorkingRegisters, both cases. -/
theorem witness_block_cases : 1 ≤ (abcAt 0x100 iv).nb ∧ (abcAt 0x100 iv).blk = (abcAt 0x100 iv).nb - 1 ∧
    1 ≤ State.nb { abcAt 0x100 iv with nb := 2 } ∧
    State.blk { abcAt 0x100 iv with nb := 2 } ≠ State.nb { abcAt 0x100 iv with nb := 2 } - 1 := by decide

/-- HaltIsLeftOnlyThroughStart: a step that leaves `HALT`. -/
theorem witness_halt_left : let s : State := { idle with pending := [.host 0x40000000 1] }
    s.uop = 0x000 ∧ ∃ t, step s = .next t ∧ t.uop ≠ 0x000 := by
  refine ⟨rfl, ({ idle with pending := [] } : State).writeCtrl 1, ?_, by decide⟩
  rw [step_host rfl]; rfl

/-- ObserverNeverFeedsTheCore: two states that differ in the observer only. -/
theorem witness_erase_observer : abcFinal.eraseObserver =
    State.eraseObserver { abcFinal with obs := false, obsEn := false, params := ⟨64, .beforeFirst, .lenExact⟩ } := by
  decide +kernel

/-- BlockRunComputesCompress: the block of "abc". -/
theorem witness_block : let s := abcAt 0x080 Quad.zero
    s.uop = 0x080 ∧ s.faultRec = none ∧ s.pending = [] ∧
    ∀ k < 16, HoldsWord s.pbuf (64 * s.blk + 4 * k)
      ([0x80636261, 0, 0, 0, 0, 0, 0, 0, 0, 0, 0, 0, 0, 0, 0x18, 0].getD k 0) := by
  refine ⟨rfl, rfl, rfl, ?_⟩
  unfold HoldsWord; decide +kernel

/-- AcceptedStartComputesMd5: "abc" with the observer on and the empty message with it off. -/
theorem witness_start_abc : StartReady
    { idle with pending := [.host 0x40000000 3], msgLen := 3, msg := [(0, 0x61), (1, 0x62), (2, 0x63)] }
    [0x61, 0x62, 0x63] 3 [] where
  idle := by decide
  noFault := rfl
  issued := rfl
  start := by decide
  length := rfl
  fits := by decide
  written := by unfold HoldsBytes; decide
theorem witness_start_empty : StartReady { idle with pending := [.host 0x40000000 1] } [] 1 [] where
  idle := by decide
  noFault := rfl
  issued := rfl
  start := by decide
  length := rfl
  fits := by decide
  written := fun i h => absurd h (Nat.not_lt_zero i)

/-- EveryInterleavingComputesMd5, ComputationRecordsInOrder: the empty message, the host polling `STATUS` before the first
and the last core step and trying a second START. -/
theorem witness_interleaving : let turns : List Turn :=
      [.host 0x00000001 0, .host 0x40000000 1] ++ List.replicate 67 .core ++ [.host 0x00000001 0, .core]
    StartReady { idle with pending := .host 0x40000000 1 :: turns } [] 1 turns ∧
    (∀ turn ∈ turns, turn ≠ .reset) ∧ turns.getLast? = some .core ∧ turns.count .core = 2 + 66 * ((0 + 8) / 64 + 1) :=
  ⟨⟨by decide, rfl, rfl, by decide, rfl, by decide, fun i h => absurd h (Nat.not_lt_zero i)⟩, by decide, by decide,
    by decide⟩

/-- ComputationIsBusyUntilItsLastStep: all core steps but the last, with a poll between, and the last one and a reset to
come. -/
theorem witness_unfinished : let turns : List Turn := [.core, .host 0x00000001 0] ++ List.replicate 66 .core
    StartReady { idle with pending := .host 0x40000000 1 :: (turns ++ [.core, .reset]) } [] 1
      (turns ++ [.core, .reset]) ∧
    (∀ turn ∈ turns, turn ≠ .reset) ∧ turns.count .core < 2 + 66 * ((0 + 8) / 64 + 1) :=
  ⟨⟨by decide, rfl, rfl, by decide, rfl, by decide, fun i h => absurd h (Nat.not_lt_zero i)⟩, by decide, by decide⟩
/-- ComputationRecordsInOrder: the same with the observer on, by core steps alone. -/
theorem witness_records : let turns : List Turn := List.replicate 68 .core
    StartReady { idle with pending := .host 0x40000000 3 :: turns } [] 3 turns ∧
    (∀ turn ∈ turns, turn ≠ .reset) ∧ turns.getLast? = some .core ∧ turns.count .core = 2 + 66 * ((0 + 8) / 64 + 1) ∧
    (3 : Word).getLsbD 1 = true ∧ (1 : Word).getLsbD 1 = false :=
  ⟨⟨by decide, rfl, rfl, by decide, rfl, by decide, fun i h => absurd h (Nat.not_lt_zero i)⟩, by decide, by decide,
    by decide, by decide, by decide⟩

/-- BootSequenceReturnsTheDigest: "abc". -/
theorem witness_boot : let s : State := { idle with pending := digestTurns [0x61, 0x62, 0x63] true }
    s.busy = false ∧ s.faultRec = none ∧ [0x61, 0x62, 0x63].length ≤ s.params.maxMsgBytes.val ∧
    s.pending = digestTurns [0x61, 0x62, 0x63] true := ⟨by decide, rfl, by decide, rfl⟩

/-- PaddedBufferInvariants: "abc", and the hypotheses of its clause below `2^29` bytes. -/
theorem witness_padded_abc : HoldsBytes (abcAt 0x040 iv).msg [0x61, 0x62, 0x63] ∧
    (abcAt 0x040 iv).size.toNat = 3 ∧ 3 < 2 ^ 29 := by
  unfold HoldsBytes; decide

/-- SequencerFollowsTheTransitionTable: the last step of a block and the last block's `FOLD`; the first `FOLD` of two. -/
theorem witness_transitions : (0x0FF : BitVec 10) = BitVec.ofNat 10 (0x0C0 + 63) ∧
    (abcAt 0x100 iv).uop = 0x100 ∧ (abcAt 0x100 iv).blk = (abcAt 0x100 iv).nb - 1 ∧
    State.blk { abcAt 0x100 iv with nb := 2 } < State.nb { abcAt 0x100 iv with nb := 2 } - 1 := by decide

/-- PaddedRecordRendering. -/
theorem witness_block_length : abcBlock.length = 64 := by decide

/-- ResetGivesTheSpecsValues: a reset that comes during a computation. -/
theorem witness_reset_turn : State.pending { abcAt 0x0D0 iv with pending := [.reset, .core] } = .reset :: [.core] := rfl

/-- EndedRunStaysEnded: with turns left and with none. -/
theorem witness_ended : Ended { idle with pending := [.core, .core] } ∧ Ended idle :=
  ⟨⟨rfl, rfl, by decide⟩, ⟨rfl, rfl, by decide⟩⟩

end Sys2Proof.Tests
end

section
/-! The invariant under every step (R18..R34), the frame of every instruction, and the constant tables. -/

namespace Sys2Proof.Machine

variable {s t : State}

/-! ### The invariant under the turns of the interleaving -/

/-- The invariant does not speak of the turns to come. -/
theorem RunInv.dropTurn (h : RunInv s) : RunInv s.dropTurn := { h with }

/-- R180: a reset empties the memories and idles the core. -/
theorem RunInv.afterReset (s : State) : RunInv s.afterReset where
  msgWf := rfl
  pbufWf := rfl
  msgRange := by simp [State.afterReset, State.reset]
  pbufRange := by simp [State.afterReset, State.reset]
  sizeFits := Nat.zero_le _
  uopLegal := show reservedWord uopHalt = false by decide
  noFault := rfl
  busyNotDone := fun _ => rfl
  busyNotLenErr := fun _ => rfl
  doneNotLenErr := fun _ => rfl
  digestZero := fun _ => rfl
  digestDone := fun hd => nomatch hd
  blockIndex := by simp [State.inClass, State.afterReset, State.reset]
  pbufFull := by simp [State.inClass, State.afterReset, State.reset]
  savedEntry := by simp [State.inClass, State.afterReset, State.reset]
  finalReady := by simp [State.inClass, State.afterReset, State.reset]

/-! ### The invariant under the micro-operations -/

/-- A word whose class is not `HALT` keeps the core busy (R30). -/
theorem busy_of_inClass {op : BitVec 4} (h : s.inClass op) (hop : op ≠ 0) : s.busy = true := by
  simpa [State.busy, State.inClass] using h ▸ hop

/-- R84: a message that fits the window pads to a buffer of at most `NB_MAX` blocks. -/
theorem blockCount_le_nbMax {p : Params} {size : Nat} (h : size ≤ p.maxMsgBytes.val) : blockCount size ≤ nbMax p := by
  unfold blockCount padLen nbMax; split <;> omega

/-- R82, R84: the padded message fills whole blocks. -/
theorem blockCount_mul (size : Nat) : 64 * blockCount size = size + padLen size + 8 := by
  unfold blockCount padLen; split <;> omega

theorem blockCount_pos (size : Nat) : 0 < blockCount size := by
  have := blockCount_mul size; omega

/-- R81: `PAD` writes every byte of the `NB` blocks and enters the first. -/
theorem RunInv.pad (h : RunInv s) (hu : s.uop = 0x040) (he : exec .pad s = .next t) : RunInv t := by
  have hc : s.inClass 1 := by simp [State.inClass, hu]
  have hb : s.busy = true := busy_of_inClass hc (by decide)
  have hlen : (padBytes s.params.lenHiMode s.size.toNat (readBytes s.msg s.draws 0 s.size.toNat).1).length =
      64 * blockCount s.size.toNat := by simp [blockCount_mul]
  cases he
  exact { h with
    pbufWf := Memory.writeBytes_wf _ _ h.pbufWf _
    pbufRange := fun p hp => by
      obtain hp | ⟨-, hp⟩ := Memory.mem_writeBytes _ _ _ hp
      · exact h.pbufRange p hp
      · have := blockCount_le_nbMax h.sizeFits
        rw [hlen] at hp
        simp only [setUop_params, emit_params]; omega
    uopLegal := show reservedWord uopEntry = false by decide
    busyNotDone := fun _ => h.busyNotDone hb
    busyNotLenErr := fun _ => h.busyNotLenErr hb
    blockIndex := fun _ => ⟨blockCount_pos _, rfl⟩
    pbufFull := fun _ a ha => by
      have := Memory.read_writeBytes_inside s.pbuf _ 0 a (hlen ▸ ha)
      rw [Nat.zero_add] at this
      exact Option.isSome_iff_exists.2 ⟨_, this⟩
    savedEntry := by simp [State.inClass, uopEntry]
    finalReady := by simp [State.inClass, uopEntry] }

/-- R93: in the final block `ENTRY` saves `A..D`. -/
theorem RunInv.entry (h : RunInv s) (hu : s.uop = 0x080) (he : exec .entry s = .next t) : RunInv t := by
  have hc : s.inClass 2 := by simp [State.inClass, hu]
  have hb : s.busy = true := busy_of_inClass hc (by decide)
  cases he
  exact { h with
    uopLegal := show reservedWord uopStep0 = false by decide
    busyNotDone := fun _ => h.busyNotDone hb
    busyNotLenErr := fun _ => h.busyNotLenErr hb
    blockIndex := fun _ => h.blockIndex (.inl hc)
    pbufFull := fun _ => h.pbufFull (.inl hc)
    savedEntry := fun _ hlast => if_pos (decide_eq_true hlast)
    finalReady := by simp [State.inClass, uopStep0] }

/-- R98: after a step the sequencer holds a step or `FOLD`. -/
theorem afterStep_legal : ∀ j : BitVec 6, reservedWord (afterStep j) = false ∧
    ((afterStep j).extractLsb' 6 4 = 3 ∨ (afterStep j).extractLsb' 6 4 = 4) := by
  decide

/-- R98: a step writes nothing but the working registers, `uop`, the channel and the draws. -/
theorem RunInv.compressStep (h : RunInv s) (hc : s.inClass 3) (j : BitVec 6) (fn : Word → Word → Word → Word) :
    RunInv (s.compressStep j fn) := by
  have hb : s.busy = true := busy_of_inClass hc (by decide)
  obtain ⟨hlegal, hclass⟩ := afterStep_legal j
  rw [compressStep_eq]
  exact { h with
    uopLegal := hlegal
    busyNotDone := fun _ => h.busyNotDone hb
    busyNotLenErr := fun _ => h.busyNotLenErr hb
    blockIndex := fun _ => h.blockIndex (.inr (.inl hc))
    pbufFull := fun _ => h.pbufFull (.inr (.inl hc))
    savedEntry := fun _ => h.savedEntry (.inl hc)
    finalReady := fun h5 => by
      rw [State.inClass] at h5
      obtain h3 | h4 := hclass
      · exact absurd (h3.symm.trans h5) (by decide)
      · exact absurd (h4.symm.trans h5) (by decide) }

/-- R103: `FOLD` adds the working registers, and goes on to the next block or, after the last, to `FINAL`. -/
theorem RunInv.fold (h : RunInv s) (hu : s.uop = 0x100) (he : exec .fold s = .next t) : RunInv t := by
  have hc : s.inClass 4 := by simp [State.inClass, hu]
  have hb : s.busy = true := busy_of_inClass hc (by decide)
  have hnotDone := h.busyNotDone hb
  obtain ⟨hlt, hnb⟩ := h.blockIndex (.inr (.inr hc))
  have ht := (Host.Outcome.next.inj he).symm
  split at ht
  case isTrue hlast =>
    have hlast : s.blk + 1 = s.nb := of_decide_eq_true hlast
    subst ht
    exact { h with
      uopLegal := show reservedWord uopFinal = false by decide
      busyNotDone := fun _ => hnotDone
      busyNotLenErr := fun _ => h.busyNotLenErr hb
      digestDone := fun hd => absurd (hnotDone.symm.trans hd) (by decide)
      blockIndex := by simp [State.inClass, uopFinal]
      pbufFull := by simp [State.inClass, uopFinal]
      savedEntry := by simp [State.inClass, uopFinal]
      finalReady := fun _ => ⟨hlast, hnb, rfl, by
        show s.dig.add s.work = s.saved.add s.work
        rw [h.savedEntry (.inr hc) hlast]⟩ }
  case isFalse hlast =>
    have hlast : s.blk + 1 ≠ s.nb := fun h => hlast (decide_eq_true h)
    subst ht
    exact { h with
      uopLegal := show reservedWord uopEntry = false by decide
      busyNotDone := fun _ => hnotDone
      busyNotLenErr := fun _ => h.busyNotLenErr hb
      digestDone := fun hd => absurd (hnotDone.symm.trans hd) (by decide)
      blockIndex := fun _ => ⟨Nat.lt_of_le_of_ne hlt hlast, hnb⟩
      pbufFull := fun _ => h.pbufFull (.inr (.inr hc))
      savedEntry := by simp [State.inClass, uopEntry]
      finalReady := by simp [State.inClass, uopEntry] }

/-- R133: `FINAL` packs the digest and idles the core. -/
theorem RunInv.final (h : RunInv s) (hu : s.uop = 0x140) (he : exec .final s = .next t) : RunInv t := by
  have hc : s.inClass 5 := by simp [State.inClass, hu]
  have hb : s.busy = true := busy_of_inClass hc (by decide)
  obtain ⟨-, -, hfin, -⟩ := h.finalReady hc
  cases he
  exact { h with
    uopLegal := show reservedWord uopHalt = false by decide
    busyNotDone := fun hb' => absurd hb' (by simp [State.busy, uopHalt])
    busyNotLenErr := fun _ => h.busyNotLenErr hb
    doneNotLenErr := fun _ => h.busyNotLenErr hb
    digestZero := fun hd => nomatch hd
    digestDone := fun _ => ⟨rfl, hfin⟩
    blockIndex := by simp [State.inClass, uopHalt]
    pbufFull := by simp [State.inClass, uopHalt]
    savedEntry := by simp [State.inClass, uopHalt]
    finalReady := by simp [State.inClass, uopHalt] }

/-- The micro-operation in `uop` keeps the invariant: by the words that are not reserved (R69). -/
theorem RunInv.exec_uop (h : RunInv s) (he : exec (decodeUop s.uop) s = .next t) : RunInv t := by
  obtain ⟨hu, hd⟩ | ⟨hu, hd⟩ | ⟨hu, hd⟩ | ⟨hu, hd⟩ | ⟨hu, hd⟩ | ⟨hc, hd⟩ := decodeUop_cases s.uop h.uopLegal <;>
    rw [hd] at he
  · cases he; exact h
  · exact h.pad hu he
  · exact h.entry hu he
  · exact h.fold hu he
  · exact h.final hu he
  · rw [exec_stepPseudo] at he
    cases he
    exact h.compressStep hc _ _

/-! ### The invariant under the host transactions -/

/-- R142..R144: of an idle core `WR_CTRL` enables the observer, and starts a length that fits or rejects another. -/
theorem RunInv.writeCtrl (h : RunInv s) (hb : s.busy = false) (v : Word) : RunInv (s.writeCtrl v) := by
  have hw : RunInv { s with obsEn := v.getLsbD 1 } := { h with }
  simp only [State.writeCtrl]
  split
  · split
    case isTrue hfits =>
      exact { hw with
        sizeFits := of_decide_eq_true hfits
        uopLegal := show reservedWord uopPad = false by decide
        busyNotDone := fun _ => rfl
        busyNotLenErr := fun _ => rfl
        doneNotLenErr := fun _ => rfl
        digestZero := fun _ => rfl
        digestDone := fun hd => nomatch hd
        blockIndex := by simp [State.inClass, uopPad]
        pbufFull := by simp [State.inClass, uopPad]
        savedEntry := by simp [State.inClass, uopPad]
        finalReady := by simp [State.inClass, uopPad] }
    case isFalse =>
      exact { hw with
        busyNotDone := fun _ => rfl
        busyNotLenErr := fun hb' => absurd (hb.symm.trans hb') (by decide)
        doneNotLenErr := fun hd => nomatch hd
        digestZero := fun _ => rfl
        digestDone := fun hd => nomatch hd }
  · exact hw

/-- R155: a word within the window is stored within the window. -/
theorem RunInv.writeMsgWord (h : RunInv s) {w : BitVec 29} (hw : w.toNat < msgWords s.params) (v : Word) :
    RunInv (s.writeMsgWord w v) :=
  { h with
    msgWf := Memory.writeBytes_wf _ _ h.msgWf _
    msgRange := fun p hp => by
      obtain hp | ⟨-, hp⟩ := Memory.mem_writeBytes _ _ _ hp
      · exact h.msgRange p hp
      · rw [bytesLE_length, msgByteOffset] at hp
        simp only [writeMsgWord_params]; omega }

/-- Every host transaction keeps the invariant. -/
theorem RunInv.exec_host (h : RunInv s) {hd : BitVec 31} {v : Word} (he : exec (decodeHost hd v) s = .next t) :
    RunInv t := by
  obtain rfl | ⟨r, d, rfl⟩ | ⟨-, rfl⟩ | ⟨hb, rfl⟩ | ⟨-, w, hw, rfl⟩ := exec_host_cases hd v he
  · exact h
  · exact { h with }
  · exact { h with }
  · exact h.writeCtrl hb v
  · exact h.writeMsgWord hw v

/-- Settles O9: a step is a micro-operation, a host transaction or a reset, and each keeps the invariant. -/
theorem stepKeepsInv : Obligations.StepKeepsInv := by
  intro s t h hstep
  obtain ⟨-, -, he⟩ | ⟨_, _, _, -, he⟩ | ⟨_, -, rfl⟩ := step_cases hstep
  · exact h.dropTurn.exec_uop he
  · exact h.dropTurn.exec_host he
  · exact .afterReset _

/-! ### What each instruction may change -/

/-- What an instruction may change: every element it does not name keeps its value. -/
def Frame : Instr → State → State → Prop
  | .halt, s, t => t = s
  | .pad, s, t =>
    t = { s with pbuf := t.pbuf, nb := t.nb, blk := t.blk, uop := t.uop, obsch := t.obsch, draws := t.draws }
  | .entry, s, t => t = { s with work := t.work, saved := t.saved, uop := t.uop }
  | .stepF _, s, t | .stepG _, s, t | .stepH _, s, t | .stepI _, s, t =>
    t = { s with work := t.work, uop := t.uop, obsch := t.obsch, draws := t.draws }
  | .fold, s, t => t = { s with dig := t.dig, fin := t.fin, blk := t.blk, uop := t.uop }
  | .final, s, t => t = { s with digest := t.digest, done := t.done, uop := t.uop, obsch := t.obsch }
  | .reservedUop _, s, t => t = { s with faultRec := t.faultRec }
  | .wrCtrl _, s, t =>
    t = { s with uop := t.uop, size := t.size, obs := t.obs, obsEn := t.obsEn, dig := t.dig, digest := t.digest,
                 done := t.done, lenErr := t.lenErr }
  | .wrMsgLen _, s, t => t = { s with msgLen := t.msgLen }
  | .wrMsg _ _, s, t => t = { s with msg := t.msg }
  | .rdCtrl, s, t | .rdStatus, s, t | .rdMsgLen, s, t | .rdCap, s, t | .rdDigest _, s, t | .rdMsg _, s, t
  | .rdRsvd _, s, t => t = { s with rsp := t.rsp, draws := t.draws }
  | .wrStatus _, s, t | .wrCap _, s, t | .wrDigest _ _, s, t | .wrRsvd _ _, s, t => t = s

/-- A compressor step keeps the frame of the four STEP rows. -/
theorem compressStep_frame (s : State) (j : BitVec 6) (fn : Word → Word → Word → Word) :
    s.compressStep j fn = { s with work := (s.compressStep j fn).work, uop := (s.compressStep j fn).uop,
                                   obsch := (s.compressStep j fn).obsch, draws := (s.compressStep j fn).draws } := by
  rw [compressStep_eq]

/-- `WR_CTRL` in either branch keeps its frame. -/
theorem writeCtrl_frame (s : State) (v : Word) : Frame (.wrCtrl v) s (s.writeCtrl v) := by
  simp only [State.writeCtrl]
  split
  · split <;> rfl
  · rfl

/-- Every instruction keeps its frame. -/
theorem exec_frame (i : Instr) (he : exec i s = .next t) : Frame i s t := by
  cases i <;> cases he
  case stepF | stepG | stepH | stepI => exact compressStep_frame ..
  case wrCtrl => exact iteInduction (motive := Frame (.wrCtrl _) s) (fun _ => rfl) fun _ => writeCtrl_frame ..
  case wrMsg =>
    exact iteInduction (motive := Frame (.wrMsg _ _) s) (fun _ => rfl) fun _ => iteInduction (fun _ => rfl) fun _ => rfl
  case fold | wrMsgLen | rdMsg => exact iteInduction (motive := Frame _ s) (fun _ => rfl) fun _ => rfl
  all_goals rfl

/-- Settles O14: the writers of an element are the instructions whose frame names it. -/
theorem elementsChangeOnlyByTheirWriters : Obligations.ElementsChangeOnlyByTheirWriters := by
  intro i s t he
  have hf := exec_frame i he
  cases i <;> (rw [Frame] at hf; rw [hf]; simp)

/-! ### The observer channel -/

/-- R121: with `OBS = 0` an emitted record is dropped. -/
theorem emit_appends (s : State) (r : ObsRecord) :
    ∃ new, (s.emit r).obsch = s.obsch ++ new ∧ (s.obs = false → new = []) := by
  cases ho : s.obs
  · exact ⟨[], by simp [ho], fun _ => rfl⟩
  · exact ⟨[r], by simp [ho], fun h => nomatch h⟩

/-- R123: a compressor step appends the records of its snapshot phase. -/
theorem compressStep_appends (s : State) (j : BitVec 6) (fn : Word → Word → Word → Word) :
    ∃ new, (s.compressStep j fn).obsch = s.obsch ++ new ∧ (s.obs = false → new = []) := by
  rw [compressStep_eq]
  exact ⟨stepRecords s j fn, rfl, fun ho => by simp [stepRecords, ho]⟩

/-- R119, R121: an instruction only appends to the observer channel, and with `OBS = 0` it appends nothing. -/
theorem exec_appends (i : Instr) (he : exec i s = .next t) :
    ∃ new, t.obsch = s.obsch ++ new ∧ (s.obs = false → new = []) := by
  have hf := exec_frame i he
  cases i
  case pad => cases he; exact emit_appends ..
  case final => cases he; exact emit_appends ..
  case stepF | stepG | stepH | stepI => cases he; exact compressStep_appends ..
  all_goals exact ⟨[], by rw [Frame] at hf; rw [hf]; simp, fun _ => rfl⟩

/-- Settles O15: a step that is not a reset is an instruction. -/
theorem observerChannelOnlyGrows : Obligations.ObserverChannelOnlyGrows := by
  intro s t hstep hreset
  obtain ⟨-, -, he⟩ | ⟨_, _, _, -, he⟩ | ⟨rest, hp, -⟩ := step_cases hstep
  · exact exec_appends (s := s.dropTurn) _ he
  · exact exec_appends (s := s.dropTurn) _ he
  · exact absurd hp (hreset rest)

/-! ### The tables -/

/-- R95, by the step index instead of the round. -/
theorem msgIndex_eq (j : BitVec 6) : msgIndex j =
    if j.toNat < 16 then j.toNat else if j.toNat < 32 then (5 * j.toNat + 1) % 16
    else if j.toNat < 48 then (3 * j.toNat + 5) % 16 else 7 * j.toNat % 16 := by
  have hj := j.isLt
  unfold msgIndex roundOf
  split_ifs <;> omega

/-- Settles O36: the 64 rotation amounts, and the 16 indices of each of the four rounds, are compared one by one. -/
theorem stepScheduleFollowsTheTables : Obligations.StepScheduleFollowsTheTables := by
  unfold Obligations.StepScheduleFollowsTheTables
  refine ⟨?amounts, msgIndex_eq, ?oncePerRound⟩
  case amounts => decide
  case oncePerRound => decide +kernel

/-- Settles O56: the 64 entries are compared one by one. -/
theorem constantTableHoldsTheSpecsValues : Obligations.ConstantTableHoldsTheSpecsValues := by
  unfold Obligations.ConstantTableHoldsTheSpecsValues
  decide

end Sys2Proof.Machine
end

section
/-! A computation under every interleaving (R55, R56, R135): where the core stands with a number of core steps still to
come, that each of its steps goes one place further, and that no host transaction disturbs a busy core. -/

namespace Sys2Proof.Machine

variable {s t s₀ : State} {message : List Byte} {mode : LenHiMode} {left : Nat}

/-! ### Host transactions while the core is busy, and what keeps the turns to come -/

/-- R56, R184: of a busy core a host transaction changes what reads have returned and the draws alone. -/
theorem exec_host_busy {h : BitVec 31} {v : Word} (hb : s.busy = true) (he : exec (decodeHost h v) s = .next t) :
    t = { s with rsp := t.rsp, draws := t.draws } := by
  obtain rfl | ⟨r, d, rfl⟩ | ⟨hidle, -⟩ | ⟨hidle, -⟩ | ⟨hidle, -⟩ := exec_host_cases h v he
  · rfl
  · rfl
  all_goals exact absurd (hidle.symm.trans hb) (by decide)

/-- Log 4: no instruction changes the turns to come. -/
theorem exec_pending {i : Instr} (he : exec i s = .next t) : t.pending = s.pending := by
  have hf := exec_frame i he
  cases i <;> (rw [Frame] at hf; rw [hf])

/-- R55: the instruction of a turn leaves the turns after it. -/
theorem exec_dropTurn_pending {i : Instr} {turn : Turn} {rest : List Turn} (hp : s.pending = turn :: rest)
    (he : exec i s.dropTurn = .next t) : t.pending = rest := by
  rw [exec_pending he, dropTurn_pending, hp, List.tail_cons]

/-! ### The places of a computation -/

/-- R83, R135: the padded buffer of a message. -/
def paddedBuffer (mode : LenHiMode) (message : List Byte) : Nat → Byte :=
  padByte mode message.length fun i => message.getD i 0

/-- R105, R135: the MD5 of a message is the digest state after all blocks of its padded buffer. -/
theorem md5_eq_digestAfter (mode : LenHiMode) (message : List Byte) :
    md5 mode message = digestAfter (paddedBuffer mode message) (blockCount message.length) := rfl

/-- What holds while block `b` of a message is compressed (R18, R19, R48, R105). -/
structure InBlock (mode : LenHiMode) (message : List Byte) (b : Nat) (s : State) : Prop where
  lt : b < blockCount message.length
  blk : s.blk = b
  nb : s.nb = blockCount message.length
  buffer : ∀ i < 64 * blockCount message.length, s.pbuf.read? i = some (paddedBuffer mode message i)
  dig : s.dig = digestAfter (paddedBuffer mode message) b

/-- R68: where the core stands in the computation of a message, with `left` core steps to come after the one that the
micro-operation in `uop` performs. -/
inductive Stage (mode : LenHiMode) (message : List Byte) (left : Nat) (s : State) : Prop
  | pad (uop : s.uop = 0x040) (size : s.size.toNat = message.length) (dig : s.dig = initialDigest)
      (steps : left = 66 * blockCount message.length + 1)
  | entry (b : Nat) (uop : s.uop = 0x080) (block : InBlock mode message b s)
      (steps : left = 66 * (blockCount message.length - b))
  | step (b : Nat) (j : BitVec 6) (uop : s.uop = BitVec.ofNat 10 (0x0C0 + j.toNat)) (block : InBlock mode message b s)
      (work : s.work = workAfter (bufferWord (paddedBuffer mode message) b) s.dig j.toNat)
      (steps : left + j.toNat + 1 = 66 * (blockCount message.length - b))
  | fold (b : Nat) (uop : s.uop = 0x100) (block : InBlock mode message b s)
      (work : s.work = workAfter (bufferWord (paddedBuffer mode message) b) s.dig 64)
      (steps : left + 65 = 66 * (blockCount message.length - b))
  | final (uop : s.uop = 0x140) (dig : s.dig = md5 mode message) (steps : left = 0)

/-- A computation of `message` that started in `s₀` and has `left` core steps to come after the next one: the core's
place, and what stays as START left it (R143) until the last step. -/
structure Running (s₀ : State) (message : List Byte) (left : Nat) (s : State) : Prop where
  stage : Stage s₀.params.lenHiMode message left s
  written : HoldsBytes s.msg message
  noFault : s.faultRec = none
  params : s.params = s₀.params
  msg : s.msg = s₀.msg
  msgLen : s.msgLen = s₀.msgLen
  obsEn : s.obsEn = s₀.obsEn
  lenErr : s.lenErr = false
  done : s.done = false
  digest : s.digest = Quad.zero

/-- R64: the sixty-four STEP words are of class 3. -/
theorem stepWord_class : ∀ j : BitVec 6, (BitVec.ofNat 10 (0x0C0 + j.toNat)).extractLsb' 6 4 = 3 := by
  decide

/-- R30: the core is busy at every place of a computation. -/
theorem Stage.busy (h : Stage mode message left s) : s.busy = true := by
  cases h with
  | pad uop => exact busy_of_inClass (op := 1) (by simp [State.inClass, uop]) (by decide)
  | entry b uop => exact busy_of_inClass (op := 2) (by simp [State.inClass, uop]) (by decide)
  | step b j uop => exact busy_of_inClass (op := 3) (by rw [State.inClass, uop, stepWord_class]) (by decide)
  | fold b uop => exact busy_of_inClass (op := 4) (by simp [State.inClass, uop]) (by decide)
  | final uop => exact busy_of_inClass (op := 5) (by simp [State.inClass, uop]) (by decide)

/-- The place of the core does not depend on what the host has read, the draws and the turns to come. -/
theorem Stage.of_host (h : Stage mode message left s) (r : List Word) (d : Nat) (p : List Turn) :
    Stage mode message left { s with rsp := r, draws := d, pending := p } := by
  cases h with
  | pad uop size dig steps => exact .pad uop size dig steps
  | entry b uop block steps => exact .entry b uop { block with } steps
  | step b j uop block work steps => exact .step b j uop { block with } work steps
  | fold b uop block work steps => exact .fold b uop { block with } work steps
  | final uop dig steps => exact .final uop dig steps

/-- Nor does the rest of what a computation keeps. -/
theorem Running.of_host (h : Running s₀ message left s) (r : List Word) (d : Nat) (p : List Turn) :
    Running s₀ message left { s with rsp := r, draws := d, pending := p } :=
  { h with stage := h.stage.of_host r d p }

theorem Running.dropTurn (h : Running s₀ message left s) : Running s₀ message left s.dropTurn :=
  h.of_host s.rsp s.draws s.pending.tail

/-! ### The steps of the core -/

/-- R81, R83: `PAD` of a written message fills its blocks with the padded buffer. -/
theorem read_pad (hm : HoldsBytes s.msg message) (hs : s.size.toNat = message.length) (he : exec .pad s = .next t)
    {i : Nat} (hi : i < 64 * blockCount message.length) :
    t.pbuf.read? i = some (paddedBuffer s.params.lenHiMode message i) := by
  rw [blockCount_mul] at hi
  cases he
  show (s.pbuf.writeBytes 0 _).read? i = _
  rw [hs, readBytes_holds s.draws hm]
  have hread := Memory.read_writeBytes_inside s.pbuf (padBytes s.params.lenHiMode message.length message) 0 i
    (by simpa using hi)
  rw [Nat.zero_add] at hread
  rw [hread, padBytes_getElem _ _ _ hi]
  rfl

/-- R96: within a block the message word of a step is the word of the padded buffer, read without a draw. -/
theorem InBlock.msgWord {b : Nat} (h : InBlock mode message b s) (j : BitVec 6) :
    msgWord s j = (bufferWord (paddedBuffer mode message) b (msgIndex j), s.draws) := by
  have hlt := h.lt
  have hj := msgIndex_lt j
  have hread : ∀ k < 4, s.pbuf.read? (msgWordOffset s.blk j + k) =
      some (paddedBuffer mode message (64 * b + 4 * msgIndex j + k)) := fun k hk => by
    rw [msgWordOffset, h.blk]
    exact h.buffer _ (by omega)
  exact readWord_listed s.draws (hread 0 (by decide)) (hread 1 (by decide)) (hread 2 (by decide))
    (hread 3 (by decide))

/-- R105: the loop body of `Compress` for step `j` comes after the first `j`. -/
theorem workAfter_toNat_succ (m : Nat → Word) (q : Quad) (j : BitVec 6) :
    workAfter m q (j.toNat + 1) = compressRound m (workAfter m q j.toNat) j := by
  rw [workAfter, BitVec.ofNat_toNat, BitVec.setWidth_eq]

/-- R98, R105: a compressor step within a block is the loop body of `Compress`. -/
theorem InBlock.compressStep_work {b : Nat} {j : BitVec 6} (h : InBlock mode message b s)
    (hw : s.work = workAfter (bufferWord (paddedBuffer mode message) b) s.dig j.toNat) :
    (s.compressStep j (fnOfRound (roundOf j))).work =
      workAfter (bufferWord (paddedBuffer mode message) b) s.dig (j.toNat + 1) := by
  rw [workAfter_toNat_succ, ← hw, compressStep_eq, h.msgWord]
  rfl

/-- R81: `PAD` enters the first block. -/
theorem Running.pad (h : Running s₀ message (left + 1) s) (hs : s.size.toNat = message.length)
    (hd : s.dig = initialDigest) (hleft : left = 66 * blockCount message.length) (he : exec .pad s = .next t) :
    Running s₀ message left t := by
  have hbuffer := fun i hi => read_pad (i := i) h.written hs he hi
  rw [h.params] at hbuffer
  cases he
  exact { h with
    stage := .entry 0 rfl
      { lt := blockCount_pos _, blk := rfl, nb := congrArg blockCount hs, buffer := hbuffer, dig := hd } hleft }

/-- R93: `ENTRY` loads the working registers for the first step. -/
theorem Running.entry (h : Running s₀ message (left + 1) s) {b : Nat} (hb : InBlock s₀.params.lenHiMode message b s)
    (hleft : left + 1 = 66 * (blockCount message.length - b)) (he : exec .entry s = .next t) :
    Running s₀ message left t := by
  cases he
  exact { h with stage := .step b 0 rfl { hb with } rfl hleft }

/-- R98: after `STEP j` the core stands before the next step or, after the last, before `FOLD`. -/
theorem Running.compressStep (h : Running s₀ message (left + 1) s) {b : Nat} {j : BitVec 6}
    (hb : InBlock s₀.params.lenHiMode message b s)
    (hw : s.work = workAfter (bufferWord (paddedBuffer s₀.params.lenHiMode message) b) s.dig j.toNat)
    (hleft : left + 1 + j.toNat + 1 = 66 * (blockCount message.length - b)) :
    Running s₀ message left (s.compressStep j (fnOfRound (roundOf j))) := by
  have hwork := hb.compressStep_work hw
  rw [compressStep_eq] at hwork ⊢
  obtain ⟨hlast, huop⟩ | ⟨hlt, huop⟩ := afterStep_cases j
  · rw [hlast] at hwork
    exact { h with stage := .fold b huop { hb with } hwork (by omega) }
  · have hj : (BitVec.ofNat 6 (j.toNat + 1)).toNat = j.toNat + 1 := by simp; omega
    have hnext : left + (j.toNat + 1) + 1 = 66 * (blockCount message.length - b) := by omega
    rw [← hj] at huop hwork hnext
    exact { h with stage := .step b _ huop { hb with } hwork hnext }

/-- R103, R105: `FOLD` completes `Compress` of the block, and the core stands before the next block or, after the last,
before `FINAL`. -/
theorem Running.fold (h : Running s₀ message (left + 1) s) {b : Nat} (hb : InBlock s₀.params.lenHiMode message b s)
    (hw : s.work = workAfter (bufferWord (paddedBuffer s₀.params.lenHiMode message) b) s.dig 64)
    (hleft : left + 1 + 65 = 66 * (blockCount message.length - b)) (he : exec .fold s = .next t) :
    Running s₀ message left t := by
  have hlt := hb.lt
  have hdig : s.dig.add s.work = digestAfter (paddedBuffer s₀.params.lenHiMode message) (b + 1) := by
    rw [hw, hb.dig]; rfl
  have ht := (Host.Outcome.next.inj he).symm
  split at ht
  case isTrue hlast =>
    have hlast : s.blk + 1 = s.nb := of_decide_eq_true hlast
    rw [hb.blk, hb.nb] at hlast
    rw [hlast, ← md5_eq_digestAfter] at hdig
    subst ht
    exact { h with stage := .final rfl hdig (by omega) }
  case isFalse hlast =>
    have hlast : s.blk + 1 ≠ s.nb := fun h => hlast (decide_eq_true h)
    rw [hb.blk, hb.nb] at hlast
    subst ht
    exact { h with
      stage := .entry (b + 1) rfl
        { hb with lt := by omega, blk := congrArg (· + 1) hb.blk, dig := hdig } (by omega) }

/-- R68: a core step that is not the last goes one place further. -/
theorem Running.exec_uop (h : Running s₀ message (left + 1) s) :
    ∃ t, exec (decodeUop s.uop) s = .next t ∧ Running s₀ message left t := by
  obtain ⟨t, he⟩ := exec_next (decodeUop s.uop) s
  refine ⟨t, he, ?_⟩
  cases h.stage with
  | pad uop size dig steps =>
    rw [uop] at he
    exact h.pad size dig (by omega) he
  | entry b uop block steps =>
    rw [uop] at he
    exact h.entry block steps he
  | step b j uop block work steps =>
    rw [uop, decodeUop_step, exec_stepPseudo] at he
    cases he
    exact h.compressStep block work steps
  | fold b uop block work steps =>
    rw [uop] at he
    exact h.fold block work steps he
  | final _ _ steps => omega

/-- What a computation of `message` that started in `s₀` leaves behind (R133, R135). -/
structure Finished (s₀ : State) (message : List Byte) (s : State) : Prop where
  digest : s.digest = md5 s₀.params.lenHiMode message
  done : s.done = true
  lenErr : s.lenErr = false
  uop : s.uop = 0x000
  obsEn : s.obsEn = s₀.obsEn
  noFault : s.faultRec = none
  msg : s.msg = s₀.msg
  msgLen : s.msgLen = s₀.msgLen

/-- R133: the last core step is `FINAL`, which packs the digest and idles the core. -/
theorem Running.exec_final (h : Running s₀ message 0 s) :
    ∃ t, exec (decodeUop s.uop) s = .next t ∧ Finished s₀ message t := by
  cases h.stage with
  | final uop dig =>
    rw [uop]
    exact ⟨_, rfl, { h with digest := dig, done := rfl, uop := rfl }⟩
  | pad _ _ _ steps => omega
  | entry b _ block steps => have := block.lt; omega
  | step b j _ block _ steps => have := block.lt; have := j.isLt; omega
  | fold b _ block _ steps => have := block.lt; omega

/-! ### The turns of an interleaving -/

/-- A turn of the core that is not the last of the computation. -/
theorem Running.core_turn (h : Running s₀ message (left + 1) s) {rest : List Turn} (hp : s.pending = .core :: rest) :
    ∃ t, step s = .next t ∧ Running s₀ message left t ∧ t.pending = rest := by
  obtain ⟨t, he, ht⟩ := h.dropTurn.exec_uop
  exact ⟨t, (step_core (.inr ⟨rest, hp⟩) h.noFault).trans he, ht, exec_dropTurn_pending hp he⟩

/-- R55, R133: the last turn of the core finishes the computation. -/
theorem Running.last_turn (h : Running s₀ message 0 s) {rest : List Turn} (hp : s.pending = .core :: rest) :
    ∃ t, step s = .next t ∧ Finished s₀ message t ∧ t.pending = rest := by
  obtain ⟨t, he, ht⟩ := h.dropTurn.exec_final
  exact ⟨t, (step_core (.inr ⟨rest, hp⟩) h.noFault).trans he, ht, exec_dropTurn_pending hp he⟩

/-- R56: a host transaction leaves the core at its place. -/
theorem Running.host_turn (h : Running s₀ message left s) {hd : BitVec 31} {v : Word} {rest : List Turn}
    (hp : s.pending = .host hd v :: rest) :
    ∃ t, step s = .next t ∧ Running s₀ message left t ∧ t.pending = rest := by
  obtain ⟨t, he⟩ := exec_next (decodeHost hd v) s.dropTurn
  have hbusy : s.dropTurn.busy = true := h.dropTurn.stage.busy
  refine ⟨t, (step_host hp).trans he, ?_, exec_dropTurn_pending hp he⟩
  rw [exec_host_busy hbusy he]
  exact h.of_host _ _ _

/-- R55, R56: turns without a reset that hold fewer core steps than the computation has left take the core as many
places further, whatever host transactions stand between them and whatever turns follow. -/
theorem Running.run_turns {rest : List Turn} (turns : List Turn) (hreset : ∀ turn ∈ turns, turn ≠ .reset) :
    ∀ s, Running s₀ message (left + turns.count .core) s → s.pending = turns ++ rest →
      ∃ t, Host.Core.run Sys2Proof.core turns.length s = .next t ∧ Running s₀ message left t ∧ t.pending = rest := by
  induction turns with
  | nil => exact fun s h hp => ⟨s, run_zero s, h, hp⟩
  | cons turn turns ih =>
    intro s h hp
    obtain ⟨hturn, hreset⟩ := List.forall_mem_cons.1 hreset
    have hfirst : ∃ t, step s = .next t ∧ Running s₀ message (left + turns.count .core) t ∧
        t.pending = turns ++ rest := by
      cases turn with
      | core =>
        rw [List.count_cons_self, ← Nat.add_assoc] at h
        exact h.core_turn hp
      | host hd v =>
        rw [List.count_cons_of_ne (by simp)] at h
        exact h.host_turn hp
      | reset => exact absurd rfl hturn
    obtain ⟨t, hstep, ht, hpt⟩ := hfirst
    obtain ⟨u, hrun, hu⟩ := ih hreset t ht hpt
    exact ⟨u, (run_succ _ hstep).trans hrun, hu⟩

/-! ### START and the whole computation -/

/-- R84, by division. -/
theorem blockCount_eq (size : Nat) : blockCount size = (size + 8) / 64 + 1 := by
  unfold blockCount padLen; split <;> omega

/-- R142, R143: `WR_CTRL` with START and a length that fits, of an idle core, is an accepted START. -/
theorem writeCtrl_accepts {v : Word} (hstart : v.getLsbD 0 = true)
    (hfits : s.msgLen.toNat ≤ s.params.maxMsgBytes.val) :
    s.writeCtrl v = State.startAccepted { s with obsEn := v.getLsbD 1 } := by
  rw [State.writeCtrl, if_pos hstart]
  exact if_pos (decide_eq_true hfits)

/-- R143: the START of a ready state leads to the first place of the computation, with the message window, `MSG_LEN` and
the parameters as they were. -/
theorem StartReady.step_start {wdata : Word} {turns : List Turn} (h : StartReady s message wdata turns) :
    ∃ s₀, step s = .next s₀ ∧ Running s₀ message (66 * blockCount message.length + 1) s₀ ∧ s₀.pending = turns ∧
      s₀.obsEn = wdata.getLsbD 1 ∧ s₀.msg = s.msg ∧ s₀.msgLen = s.msgLen ∧ s₀.params = s.params := by
  have hbusy : s.dropTurn.busy = false := h.idle
  refine ⟨State.startAccepted { s.dropTurn with obsEn := wdata.getLsbD 1 }, ?step, ?running, ?pending,
    rfl, rfl, rfl, rfl⟩
  case step =>
    rw [step_host h.issued, ← writeCtrl_accepts h.start (h.length ▸ h.fits)]
    show Host.Outcome.next (if s.dropTurn.busy then _ else _) = _
    rw [hbusy]
    rfl
  case running =>
    exact { stage := .pad rfl h.length rfl rfl, written := h.written, noFault := h.noFault, params := rfl, msg := rfl,
            msgLen := rfl, obsEn := rfl, lenErr := rfl, done := rfl, digest := rfl }
  case pending =>
    show s.pending.tail = turns
    rw [h.issued, List.tail_cons]

/-- Settles O46: START, the turns up to the last one, which leave the core before `FINAL`, and the core's last turn. -/
theorem everyInterleavingComputesMd5 : Obligations.EveryInterleavingComputesMd5 := by
  intro s message wdata turns hready hreset hlast hcount
  obtain ⟨init, rfl⟩ := List.getLast?_eq_some_iff.1 hlast
  rw [← blockCount_eq, List.count_append, List.count_singleton_self] at hcount
  obtain ⟨s₀, hstart, hrun₀, hp₀, hobs, hmsg, hlen, hparams⟩ := hready.step_start
  rw [show 66 * blockCount message.length + 1 = 0 + init.count .core by omega] at hrun₀
  obtain ⟨u, hrun, hu, hpu⟩ :=
    Running.run_turns init (fun turn hturn => hreset turn (List.mem_append_left _ hturn)) s₀ hrun₀ hp₀
  obtain ⟨t, hfinal, ht, hpt⟩ := hu.last_turn hpu
  refine ⟨t, ?run, hparams ▸ ht.digest, ht.done, ht.lenErr, ht.uop, ht.obsEn.trans hobs, ht.noFault,
    ht.msg.trans hmsg, ht.msgLen.trans hlen, hpt⟩
  rw [List.length_append, Nat.add_comm, run_succ _ hstart, run_add _ _ hrun]
  exact run_succ 0 hfinal

end Sys2Proof.Machine
end

section
/-! The encodings (R63..R71): what the decoder makes of the words of each row, which words those are, and that decoder
and encoder undo each other. -/

namespace Sys2Proof

open Machine

/-! ### The micro-operation words as `op` and `j` (R63) -/

@[simp] theorem uopWord_op (op : BitVec 4) (j : BitVec 6) : (uopWord op j).extractLsb' 6 4 = op :=
  BitVec.extractLsb'_append_eq_left

@[simp] theorem uopWord_j (op : BitVec 4) (j : BitVec 6) : (uopWord op j).extractLsb' 0 6 = j :=
  BitVec.extractLsb'_append_eq_right

theorem uopWord_extract (u : BitVec 10) : uopWord (u.extractLsb' 6 4) (u.extractLsb' 0 6) = u := by
  unfold uopWord
  rw [BitVec.extractLsb'_append_extractLsb'_eq_extractLsb' (by decide)]
  simp

/-- R69, by `op` and `j`. -/
theorem reservedWord_uopWord (op : BitVec 4) (j : BitVec 6) :
    reservedWord (uopWord op j) = (decide (6 ≤ op.toNat) || (decide (op ≠ 3) && decide (j ≠ 0))) := by
  simp only [reservedWord, uopWord_op, uopWord_j]

/-! ### The micro-operation rows -/

set_option maxRecDepth 100000 in
/-- R69: a reserved word matches no other row. The 1024 words are tried one by one. -/
theorem decodeUop_reserved : ∀ u : BitVec 10, reservedWord u = true → decodeUop u = .reservedUop u := by
  decide +kernel

/-- R64: the words with `op = 3` are the four STEP rows. -/
theorem decodeUop_stepWord (j : BitVec 6) : decodeUop (uopWord 3 j) = stepPseudo j := by
  have hword : uopWord 3 j = BitVec.ofNat 10 (0x0C0 + j.toNat) := by
    apply BitVec.eq_of_toNat_eq
    rw [uopWord_toNat]
    simp; omega
  rw [hword, decodeUop_step]

/-- R63: `j[5:4]`, as the number the STEP row is chosen by. -/
theorem round_toNat (j : BitVec 6) : (j.extractLsb' 4 2).toNat = j.toNat / 16 := by
  simp [Nat.shiftRight_eq_div_pow]; omega

/-- R75: the STEP row of an index, by the ranges of R64. -/
theorem stepPseudo_eq (j : BitVec 6) : stepPseudo j =
    if j.toNat < 16 then .stepF j else if j.toNat < 32 then .stepG j else if j.toNat < 48 then .stepH j
    else .stepI j := by
  revert j; decide

/-- The STEP row of an index admits that index. -/
theorem stepPseudo_wf (j : BitVec 6) : (stepPseudo j).wf = true := by
  revert j; decide

theorem encode_stepPseudo (j : BitVec 6) : encode (stepPseudo j) = .uop (uopWord 3 j) := by
  rw [stepPseudo_eq]
  split_ifs <;> rfl

/-- Settles O3: `op = 3` gives the STEP rows; of the other words those with `j ≠ 0` are reserved, and those with `j = 0`
are one for each of the 16 values of `op`. -/
theorem uopWordsFollowTheOpcodeMap : Obligations.UopWordsFollowTheOpcodeMap := by
  intro op j
  by_cases h3 : op = 3
  · rw [if_pos h3, h3, decodeUop_stepWord, stepPseudo_eq]
  · rw [if_neg h3]
    by_cases hj : j = 0
    · subst hj
      revert op; decide
    · rw [if_pos hj]
      exact decodeUop_reserved _ (by rw [reservedWord_uopWord, decide_eq_true h3, decide_eq_true hj]; simp)

/-! ### The addresses of the host bus (R71) -/

/-- R71: every word address is a register's, a digest word's, a message word's or a reserved one. -/
inductive AddressClass : BitVec 30 → Prop
  | ctrl : AddressClass 0
  | status : AddressClass 1
  | msgLen : AddressClass 2
  | cap : AddressClass 3
  | digest (k : BitVec 2) : AddressClass (digestAddress k)
  | msg (w : BitVec 29) : AddressClass (msgAddress w)
  | rsvd (wa : BitVec 30) (h : reservedAddress wa = true) : AddressClass wa

/-- The class of an address, by the ranges of R71. -/
theorem addressClass (wa : BitVec 30) : AddressClass wa := by
  have hlt := wa.isLt
  obtain hreg | hdig | hrsvd | hmsg :
      wa.toNat < 4 ∨ (4 ≤ wa.toNat ∧ wa.toNat < 8) ∨ (8 ≤ wa.toNat ∧ wa.toNat < 2 ^ 29) ∨ 2 ^ 29 ≤ wa.toNat := by
    omega
  · obtain ⟨n, rfl, hn⟩ : ∃ n, wa = BitVec.ofNat 30 n ∧ n < 4 := ⟨wa.toNat, by simp, hreg⟩
    interval_cases n
    exacts [.ctrl, .status, .msgLen, .cap]
  · have hwa : digestAddress (BitVec.ofNat 2 wa.toNat) = wa := by
      apply BitVec.eq_of_toNat_eq
      rw [digestAddress_toNat, BitVec.toNat_ofNat]; omega
    exact hwa ▸ .digest _
  · exact .rsvd wa (by simp only [reservedAddress, Bool.and_eq_true, decide_eq_true_eq]; exact hrsvd)
  · have hwa : msgAddress (BitVec.ofNat 29 wa.toNat) = wa := by
      apply BitVec.eq_of_toNat_eq
      rw [msgAddress_toNat, BitVec.toNat_ofNat]; omega
    exact hwa ▸ .msg _

/-- R70: a header is its `we` and its `wa`. -/
theorem hostHeader_extract (h : BitVec 31) : hostHeader (h.extractLsb' 30 1) (h.extractLsb' 0 30) = h := by
  unfold hostHeader
  rw [BitVec.extractLsb'_append_extractLsb'_eq_extractLsb' (by decide)]
  simp

/-! ### The host rows -/

/-- Settles O4. Each of the seven ranges of `wa` meets one row of either `we`; beyond the window `RD_MSG` answers 0 and
`WR_MSG` is ignored, as the reserved rows do. -/
theorem hostHeadersFollowTheAddressMap : Obligations.HostHeadersFollowTheAddressMap := by
  refine ⟨fun we wa v => ?map, fun s w v hw => ⟨?read, ?write⟩⟩
  case map =>
    have hlt := wa.isLt
    rw [decodeHost_eq, hostHeader_toNat]
    obtain hwa | hwa | hwa | hwa | hwa | hwa | hwa : 2 ^ 29 ≤ wa.toNat ∨ wa.toNat = 0 ∨ wa.toNat = 1 ∨
        wa.toNat = 2 ∨ wa.toNat = 3 ∨ (4 ≤ wa.toNat ∧ wa.toNat < 8) ∨ (8 ≤ wa.toNat ∧ wa.toNat < 2 ^ 29) := by omega
    all_goals
      obtain rfl | rfl := BitVec.eq_zero_or_eq_one we
      all_goals
        simp only [BitVec.toNat_ofNat]
        simp (disch := omega) only [if_neg, if_pos]
        simp [BitVec.ofNat_add]
  case read => exact congrArg Host.Outcome.next (if_neg (Nat.not_lt.2 hw))
  case write => exact congrArg Host.Outcome.next (if_pos hw)

section Rows

variable (we : BitVec 1) (v : Word)

theorem decodeHost_digest (k : BitVec 2) :
    decodeHost (hostHeader we (digestAddress k)) v = if we = 0 then .rdDigest k else .wrDigest k v := by
  have := k.isLt
  rw [hostHeadersFollowTheAddressMap.1, digestAddress_toNat]
  simp (disch := omega) only [if_neg, if_pos]
  simp [BitVec.ofNat_add]

theorem decodeHost_msg (w : BitVec 29) :
    decodeHost (hostHeader we (msgAddress w)) v = if we = 0 then .rdMsg w else .wrMsg w v := by
  rw [hostHeadersFollowTheAddressMap.1, msgAddress_toNat, if_pos (Nat.le_add_right ..)]
  simp [BitVec.ofNat_add]

theorem decodeHost_rsvd {wa : BitVec 30} (h : reservedAddress wa = true) :
    decodeHost (hostHeader we wa) v = if we = 0 then .rdRsvd wa else .wrRsvd wa v := by
  obtain ⟨hlo, hhi⟩ : 8 ≤ wa.toNat ∧ wa.toNat < 2 ^ 29 := by simpa [reservedAddress] using h
  rw [hostHeadersFollowTheAddressMap.1]
  simp (disch := omega) only [if_neg]

end Rows

/-! ### Decoder and encoder -/

/-- Settles O1: each row's words decode to that row; a STEP row by the round of its index, a reserved word or address
because no row before it matches. -/
theorem decodeOfEncodeIsInstr : Obligations.DecodeOfEncodeIsInstr := by
  intro i hwf
  cases i with
  | stepF j | stepG j | stepH j | stepI j =>
    have hround : j.extractLsb' 4 2 = _ := of_decide_eq_true hwf
    refine (decodeUop_stepWord j).trans ?_
    simp [stepPseudo, ← round_toNat, hround]
  | reservedUop u => exact decodeUop_reserved u hwf
  | rdDigest k => exact decodeHost_digest 0 0 k
  | wrDigest k v => exact decodeHost_digest 1 v k
  | rdMsg w => exact decodeHost_msg 0 0 w
  | wrMsg w v => exact decodeHost_msg 1 v w
  | rdRsvd wa => exact decodeHost_rsvd 0 0 hwf
  | wrRsvd wa v => exact decodeHost_rsvd 1 v hwf
  | halt | pad | entry | fold | final => rfl
  | rdCtrl | rdStatus | rdMsgLen | rdCap => rfl
  | wrCtrl v | wrStatus v | wrMsgLen v | wrCap v => rfl

/-- R63, R69: a micro-operation word decodes to a well-formed instruction with that word. -/
theorem encode_decodeUop (u : BitVec 10) : encode (decodeUop u) = .uop u ∧ (decodeUop u).wf = true := by
  cases hr : reservedWord u
  case true =>
    rw [decodeUop_reserved u hr]
    exact ⟨rfl, hr⟩
  case false =>
    obtain ⟨rfl, hd⟩ | ⟨rfl, hd⟩ | ⟨rfl, hd⟩ | ⟨rfl, hd⟩ | ⟨rfl, hd⟩ | ⟨hc, hd⟩ := decodeUop_cases u hr <;> rw [hd]
    case inr.inr.inr.inr.inr =>
      rw [encode_stepPseudo, ← hc, uopWord_extract]
      exact ⟨rfl, stepPseudo_wf _⟩
    all_goals exact ⟨rfl, rfl⟩

/-- R70, R71: a header decodes to a well-formed instruction with that header, and with the data word if it is a write's. -/
theorem encode_decodeHost (we : BitVec 1) (wa : BitVec 30) (v : Word) :
    encode (decodeHost (hostHeader we wa) v) = .host (hostHeader we wa) (if we = 0 then 0 else v) ∧
    (decodeHost (hostHeader we wa) v).wf = true := by
  have hclass := addressClass wa
  obtain rfl | rfl := BitVec.eq_zero_or_eq_one we <;> cases hclass
  case inl.digest | inr.digest => rw [decodeHost_digest]; exact ⟨rfl, rfl⟩
  case inl.msg | inr.msg => rw [decodeHost_msg]; exact ⟨rfl, rfl⟩
  case inl.rsvd h | inr.rsvd h => rw [decodeHost_rsvd _ _ h]; exact ⟨rfl, h⟩
  all_goals exact ⟨rfl, rfl⟩

/-- Settles O2: the micro-operation words, and the headers by `we = header[30]` and `wa = header[29:0]`. -/
theorem encodeOfDecodeIsWord : Obligations.EncodeOfDecodeIsWord := by
  refine ⟨encode_decodeUop, fun h v => ?_⟩
  have hwe : (if h.getLsbD 30 then v else 0) = if h.extractLsb' 30 1 = 0 then 0 else v := by
    have hbit : (h.extractLsb' 30 1).getLsbD 0 = h.getLsbD 30 := by simp
    rw [← hbit]
    obtain h0 | h1 := BitVec.eq_zero_or_eq_one (h.extractLsb' 30 1)
    · rw [h0]; rfl
    · rw [h1]; rfl
  have hword := encode_decodeHost (h.extractLsb' 30 1) (h.extractLsb' 0 30) v
  rwa [hostHeader_extract, ← hwe] at hword

/-- Settles O5: the decoder's rows are tried on the ten words. -/
theorem sampleWordsDecode : Obligations.SampleWordsDecode := by
  unfold Obligations.SampleWordsDecode
  decide

end Sys2Proof
end

section
/-! A step and the instruction it runs (R55, R67), the sequencer's transition table (R68), and runs of a state with the
invariant. -/

namespace Sys2Proof.Machine

variable {s t : State}

/-! ### The step and the decoded instruction -/

/-- The state a turn is had in. -/
theorem dropTurn_of_cons {turn : Turn} {rest : List Turn} (hp : s.pending = turn :: rest) :
    s.dropTurn = { s with pending := rest } := by
  rw [State.dropTurn, hp, List.tail_cons]

/-- Settles O6: on the core's turn the word in `uop`, on the host's the transaction. -/
theorem stepRunsDecodedInstruction : Obligations.StepRunsDecodedInstruction := by
  constructor
  · rintro s i rfl - hturn hfault
    exact step_core hturn hfault
  · rintro s h v rest i hp rfl -
    rw [step_host hp, dropTurn_of_cons hp]
    rfl

/-- What is placed is what the next step runs (log 12). -/
theorem step_withFetched (s : State) (f : Fetched) :
    ∃ s', step (s.withFetched f) = exec (decode f) s' ∧ s'.pending = s.pending ∧
      s' = { s with uop := s'.uop, faultRec := s'.faultRec } := by
  cases f with
  | uop u => exact ⟨_, step_core (s := s.withFetched (.uop u)) (.inr ⟨_, rfl⟩) rfl, rfl, rfl⟩
  | host h v => exact ⟨_, step_host (s := s.withFetched (.host h v)) rfl, rfl, rfl⟩

/-- Settles O7: a table word the decoder reads is an encoded form, and that is what is placed. -/
theorem placedWordRunsNext : Obligations.PlacedWordRunsNext := by
  intro s nbits w i hi
  unfold decodeTableWord at hi
  unfold State.withFetchWord State.placeTableWord
  cases hf : fetchedOfTableWord nbits w with
  | error e => rw [hf] at hi; cases hi
  | ok f =>
    rw [hf] at hi
    cases hi
    exact step_withFetched s f

/-! ### The transition table -/

theorem exec_pad_sequencer (he : exec .pad s = .next t) :
    t.uop = 0x080 ∧ t.blk = 0 ∧ t.nb = (s.size.toNat + 8) / 64 + 1 := by
  cases he
  exact ⟨rfl, rfl, blockCount_eq _⟩

theorem exec_entry_sequencer (he : exec .entry s = .next t) : t.uop = 0x0C0 ∧ t.blk = s.blk ∧ t.nb = s.nb := by
  cases he
  exact ⟨rfl, rfl, rfl⟩

theorem exec_step_sequencer {j : BitVec 6} (hu : s.uop = BitVec.ofNat 10 (0x0C0 + j.toNat))
    (he : exec (decodeUop s.uop) s = .next t) : t.uop = afterStep j ∧ t.blk = s.blk ∧ t.nb = s.nb := by
  rw [hu, decodeUop_step, exec_stepPseudo, compressStep_eq] at he
  cases he
  exact ⟨rfl, rfl, rfl⟩

theorem exec_fold_next_block (hblk : s.blk + 1 ≠ s.nb) (he : exec .fold s = .next t) :
    t.uop = 0x080 ∧ t.blk = s.blk + 1 ∧ t.nb = s.nb := by
  have ht := (Host.Outcome.next.inj he).symm.trans (if_neg fun hlast => hblk (of_decide_eq_true hlast))
  rw [ht]
  exact ⟨rfl, rfl, rfl⟩

theorem exec_fold_last_block (hblk : s.blk + 1 = s.nb) (he : exec .fold s = .next t) :
    t.uop = 0x140 ∧ t.blk = s.blk ∧ t.nb = s.nb := by
  have ht := (Host.Outcome.next.inj he).symm.trans (if_pos (decide_eq_true hblk))
  rw [ht]
  exact ⟨rfl, rfl, rfl⟩

theorem exec_final_sequencer (he : exec .final s = .next t) : t.uop = 0x000 ∧ t.blk = s.blk ∧ t.nb = s.nb := by
  cases he
  exact ⟨rfl, rfl, rfl⟩

/-- R18, R19: at `FOLD` there is a block. -/
theorem RunInv.blk_lt_of_fold (h : RunInv s) (hu : s.uop = 0x100) : s.blk < s.nb :=
  (h.blockIndex (.inr (.inr (by simp [State.inClass, hu])))).1

/-- Settles O11: row by row; `FOLD` by whether the block is the last. -/
theorem sequencerFollowsTheTransitionTable : Obligations.SequencerFollowsTheTransitionTable := by
  intro s h
  obtain ⟨t, he⟩ := exec_next (decodeUop s.uop) s
  refine ⟨t, he, fun hu => ?halt, fun hu => ?pad, fun hu => ?entry, fun j hj hu => ?step, fun hu => ?lastStep,
    fun hu hblk => ?fold, fun hu hblk => ?lastFold, fun hu => ?final⟩
  case step =>
    have hmod : (BitVec.ofNat 6 j).toNat = j := by simp; omega
    rw [← hmod] at hu
    obtain ⟨huop, hkeep⟩ := exec_step_sequencer hu he
    obtain ⟨hlast, -⟩ | ⟨-, hnext⟩ := afterStep_cases (BitVec.ofNat 6 j)
    · omega
    · rw [hmod] at hnext
      exact ⟨huop.trans hnext, hkeep⟩
  case lastStep => exact exec_step_sequencer (j := 63) hu he
  all_goals rw [hu] at he
  case halt => exact (Host.Outcome.next.inj he).symm
  case pad => exact exec_pad_sequencer he
  case entry => exact exec_entry_sequencer he
  case fold => exact exec_fold_next_block (by omega) he
  case lastFold =>
    have := h.blk_lt_of_fold hu
    exact exec_fold_last_block (by omega) he
  case final => exact exec_final_sequencer he

/-! ### Runs -/

/-- A state without a fault has a next state: no instruction stops the machine. -/
theorem step_next (hf : s.faultRec = none) : ∃ t, step s = .next t := by
  obtain ht | ⟨h, v, rest, hp⟩ | ⟨rest, hp⟩ := turn_cases s
  · rw [step_core ht hf]; exact exec_next ..
  · rw [step_host hp]; exact exec_next ..
  · exact ⟨_, step_reset hp⟩

/-- Settles O10, by induction on the number of steps. -/
theorem invRunsForever : Obligations.InvRunsForever := by
  intro s n
  induction n generalizing s with
  | zero => exact fun h => ⟨s, run_zero s, h⟩
  | succ n ih =>
    intro h
    obtain ⟨t, hstep⟩ := step_next h.noFault
    obtain ⟨u, hrun, hu⟩ := ih t (stepKeepsInv s t h hstep)
    exact ⟨u, (run_succ n hstep).trans hrun, hu⟩

/-- Settles O12: the state after reset has the invariant, whatever turns follow, as the state after a reset turn has. -/
theorem noRunFromResetReachesAReservedWord : Obligations.NoRunFromResetReachesAReservedWord := by
  intro turns n
  have hinv : RunInv { State.reset with pending := turns } := .afterReset { State.reset with pending := turns }
  obtain ⟨t, hrun, ht⟩ := invRunsForever _ n hinv
  exact ⟨t, hrun, ht.uopLegal, ht.noFault⟩

end Sys2Proof.Machine
end

section
/-! The padder (R81..R89): the pad length, the block count and the length field in numbers, `PadByte` part by part, and
the buffer, frame and record of `PAD`. -/

namespace Sys2Proof.Machine

variable {s t : State}

/-! ### The numbers of the padder -/

theorem padLen_le (size : Nat) : padLen size ≤ 64 := by
  unfold padLen; split <;> omega

/-- R82: the pad leaves 8 bytes of the last block for the length field. -/
theorem add_padLen_mod (size : Nat) : (size + padLen size) % 64 = 56 := by
  have := blockCount_mul size; omega

/-- R82: two such pads differ by a multiple of 64, and `PadLen` is at most 64. -/
theorem padLen_minimal {size q : Nat} (hq : 0 < q) (hmod : (size + q) % 64 = 56) : padLen size ≤ q := by
  have := padLen_le size
  have := add_padLen_mod size
  omega

/-- Settles O28: the branch at 56, the range, the residue and the minimality of the pad. -/
theorem padLenIsTheSmallestPositivePad : Obligations.PadLenIsTheSmallestPositivePad :=
  fun size => ⟨rfl, padLen_pos size, padLen_le size, add_padLen_mod size, fun _ hq hmod => padLen_minimal hq hmod⟩

/-- Settles O29: each quotient is that of `64 * NB` and a remainder below 64. -/
theorem blockCountFormulas : Obligations.BlockCountFormulas := by
  intro size
  have hmul := blockCount_mul size
  have heq := blockCount_eq size
  exact ⟨hmul, by omega, by omega, heq, blockCount_pos size, fun _ hfits => blockCount_le_nbMax hfits⟩

theorem lenLo_toNat (size : Nat) : (lenLo size).toNat = 8 * size % 2 ^ 32 := BitVec.toNat_ofNat ..

theorem lenHi_exact_toNat (size : Nat) : (lenHi .lenExact size).toNat = 8 * size / 2 ^ 32 % 2 ^ 32 :=
  BitVec.toNat_ofNat ..

/-- R86: below `2^29` bytes the bit count fits 32 bits. -/
theorem lenHi_eq_zero {size : Nat} (mode : LenHiMode) (h : size < 2 ^ 29) : lenHi mode size = 0 := by
  cases mode with
  | lenExact =>
    have hquot : 8 * size / 2 ^ 32 = 0 := by omega
    exact congrArg (BitVec.ofNat 32) hquot
  | lenZero => rfl

/-- Settles O30: the two words are the low and the high digit of the bit count in base `2^32`. -/
theorem lengthFieldIsTheBitCount : Obligations.LengthFieldIsTheBitCount := by
  intro size
  have hlo := lenLo_toNat size
  have hhi := lenHi_exact_toNat size
  refine ⟨hlo, hhi, rfl, fun hsize => ?_, fun mode hsize => lenHi_eq_zero mode hsize⟩
  refine ⟨?_, ?_, ?_⟩ <;> omega

/-! ### The padded byte, part by part (R83) -/

section PadByte

variable (mode : LenHiMode) (size : Nat) (original : Nat → Byte)

theorem padByte_message {i : Nat} (h : i < size) : padByte mode size original i = original i := if_pos h

theorem padByte_marker : padByte mode size original size = 0x80 := by
  simp [padByte]

theorem padByte_lenLo {k : Nat} (h : k < 4) :
    padByte mode size original (size + padLen size + k) = (lenLo size).extractLsb' (8 * k) 8 := by
  have := padLen_pos size
  simp (disch := omega) only [padByte, if_neg, if_pos]
  rw [Nat.add_sub_cancel_left]

theorem padByte_lenHi {k : Nat} :
    padByte mode size original (size + padLen size + 4 + k) = (lenHi mode size).extractLsb' (8 * k) 8 := by
  have := padLen_pos size
  simp (disch := omega) only [padByte, if_neg]
  rw [Nat.add_sub_cancel_left]

end PadByte

/-! ### The bytes `PAD` reads and writes -/

/-- R81, U3: the message `PAD` reads, with a draw for every byte that was never written. -/
def State.padMessage (s : State) : List Byte := (readBytes s.msg s.draws 0 s.size.toNat).1

/-- R81, R83: the bytes `PAD` writes from offset 0 on. -/
def State.paddedBytes (s : State) : List Byte := padBytes s.params.lenHiMode s.size.toNat s.padMessage

theorem padMessage_length (s : State) : s.padMessage.length = s.size.toNat := readBytes_length ..

/-- A written byte is read as it is. -/
theorem padMessage_written {i : Nat} {v : Byte} (hi : i < s.padMessage.length) (hv : s.msg.read? i = some v) :
    s.padMessage[i] = v :=
  readBytes_getElem s.msg s.size.toNat s.draws 0 i v (padMessage_length s ▸ hi) (by rwa [Nat.zero_add])

/-- A message that is written throughout is held by the message window. -/
theorem padMessage_holds (h : ∀ i < s.size.toNat, (s.msg.read? i).isSome = true) : HoldsBytes s.msg s.padMessage := by
  intro i hi
  obtain ⟨v, hv⟩ := Option.isSome_iff_exists.1 (h i (padMessage_length s ▸ hi))
  rw [padMessage_written hi hv, hv]

theorem paddedBytes_length (s : State) : s.paddedBytes.length = 64 * blockCount s.size.toNat := by
  rw [State.paddedBytes, padBytes_length, padMessage_length, blockCount_mul]

/-- R83: byte by byte they are `PadByte`. -/
theorem paddedBytes_getElem? {i : Nat} (hi : i < 64 * blockCount s.size.toNat) :
    s.paddedBytes[i]? = some (padByte s.params.lenHiMode s.size.toNat (fun k => s.padMessage.getD k 0) i) := by
  have hbound := hi
  rw [blockCount_mul] at hbound
  rw [List.getElem?_eq_getElem (by rwa [paddedBytes_length])]
  simp only [State.paddedBytes, ← padMessage_length s] at hbound ⊢
  rw [padBytes_getElem _ _ _ hbound]

/-! ### The state after `PAD` -/

theorem exec_pad_pbuf (he : exec .pad s = .next t) : t.pbuf = s.pbuf.writeBytes 0 s.paddedBytes := by
  cases he; rfl

theorem exec_pad_nb (he : exec .pad s = .next t) : t.nb = blockCount s.size.toNat := by
  cases he; rfl

/-- R81: `PAD` of a message that is written throughout draws nothing. -/
theorem exec_pad_draws (he : exec .pad s = .next t) (h : ∀ i < s.size.toNat, (s.msg.read? i).isSome = true) :
    t.draws = s.draws := by
  cases he
  exact readBytes_draws s.msg _ s.draws 0 fun i hi => by rw [Nat.zero_add]; exact h i hi

/-- R122: the PADDED record shows the written bytes in blocks. -/
theorem exec_pad_obsch (he : exec .pad s = .next t) :
    t.obsch = s.obsch ++ if s.obs then [.padded t.nb (splitBlocks t.nb s.paddedBytes)] else [] := by
  cases he
  show (if s.obs then s.obsch ++ _ else s.obsch) = _
  cases s.obs
  · simp
  · rfl

/-- Below `64 * NB` the buffer holds the bytes `PAD` wrote. -/
theorem exec_pad_read_inside (he : exec .pad s = .next t) {i : Nat} (hi : i < 64 * t.nb) :
    t.pbuf.read? i = s.paddedBytes[i]? := by
  rw [exec_pad_nb he, ← paddedBytes_length] at hi
  have hread := Memory.read_writeBytes_inside s.pbuf s.paddedBytes 0 i hi
  rwa [Nat.zero_add, ← exec_pad_pbuf he, ← List.getElem?_eq_getElem hi] at hread

/-- Log 14: from `64 * NB` on the buffer is as it was. -/
theorem exec_pad_read_outside (he : exec .pad s = .next t) {i : Nat} (hi : 64 * t.nb ≤ i) :
    t.pbuf.read? i = s.pbuf.read? i := by
  rw [exec_pad_nb he, ← paddedBytes_length] at hi
  rw [exec_pad_pbuf he]
  exact Memory.read_writeBytes_outside s.pbuf _ 0 (.inr (by rwa [Nat.zero_add]))

/-! ### The blocks of the PADDED record (R122) -/

theorem length_of_mem_splitBlocks {nb : Nat} {bytes block : List Byte} (hlen : bytes.length = 64 * nb)
    (h : block ∈ splitBlocks nb bytes) : block.length = 64 := by
  obtain ⟨b, hb, rfl⟩ := List.getElem_of_mem h
  rw [splitBlocks_length] at hb
  rw [splitBlocks_getElem nb bytes b hb, List.length_take, List.length_drop]
  omega

/-- Byte `k` of block `b` is byte `64 * b + k`. -/
theorem splitBlocks_getElem? {nb b k : Nat} (bytes : List Byte) (hb : b < nb) (hk : k < 64) :
    ((splitBlocks nb bytes).getD b [])[k]? = bytes[64 * b + k]? := by
  rw [List.getD_eq_getElem _ _ (by rwa [splitBlocks_length]), splitBlocks_getElem nb bytes b hb,
    List.getElem?_take_of_lt hk, List.getElem?_drop]

/-! ### The statements about `PAD` -/

/-- Settles O31: the buffer below `64 * NB` is the written bytes, which are `PadByte` one by one, and the blocks of the
record are cut from the same bytes. -/
theorem padBuildsThePaddedBuffer : Obligations.PadBuildsThePaddedBuffer := by
  intro s
  obtain ⟨t, he⟩ := exec_next .pad s
  have hnb := exec_pad_nb he
  obtain ⟨huop, hblk, -⟩ := exec_pad_sequencer he
  have hlen : s.paddedBytes.length = 64 * t.nb := by rw [hnb, paddedBytes_length]
  refine ⟨t, s.padMessage, he, exec_frame .pad he, padMessage_length s, fun i hi v hv => padMessage_written hi hv,
    exec_pad_draws he, hnb ▸ blockCount_mul _, hblk, huop, fun i hi => ?inside,
    fun i hi => exec_pad_read_outside he hi, splitBlocks t.nb s.paddedBytes, exec_pad_obsch he,
    splitBlocks_length _ _, fun block hblock => length_of_mem_splitBlocks hlen hblock, fun b hb k hk => ?record⟩
  case inside =>
    rw [exec_pad_read_inside he hi]
    exact paddedBytes_getElem? (hnb ▸ hi)
  case record =>
    rw [splitBlocks_getElem? _ hb hk, exec_pad_read_inside he (by omega)]

/-- Settles O32: the parts of `PadByte`, each at the offset its rule gives it. -/
theorem paddedBufferInvariants : Obligations.PaddedBufferInvariants := by
  intro s message hmsg hsize
  obtain ⟨t, he⟩ := exec_next .pad s
  have hnb : 64 * t.nb = message.length + padLen message.length + 8 := by
    rw [exec_pad_nb he, hsize, blockCount_mul]
  have hread : ∀ i < message.length + padLen message.length + 8,
      t.pbuf.read? i = some (paddedBuffer s.params.lenHiMode message i) := fun i hi =>
    read_pad hmsg hsize he (by rwa [blockCount_mul])
  have hpos := padLen_pos message.length
  refine ⟨t, he, hnb, ?marker, fun k hk => ?lenLo, fun k hk => ?lenHi, fun hlt => ?bitCount, fun i hi => ?message⟩
  case marker =>
    rw [hread _ (by omega), paddedBuffer, padByte_marker]
  case lenLo =>
    rw [show 64 * t.nb - 8 + k = message.length + padLen message.length + k by omega, hread _ (by omega),
      paddedBuffer, padByte_lenLo _ _ _ hk]
  case lenHi =>
    rw [show 64 * t.nb - 4 + k = message.length + padLen message.length + 4 + k by omega, hread _ (by omega),
      paddedBuffer, padByte_lenHi]
  case bitCount =>
    rw [lenHi_eq_zero _ hlt, lenLo_toNat, BitVec.ofNat_eq_ofNat, BitVec.toNat_zero]
    omega
  case message =>
    rw [hread _ (by omega), paddedBuffer, padByte_message _ _ _ hi, List.getD_eq_getElem _ _ hi]

/-- Settles O33: both states hold the same message, and `PAD` of a written message fills the blocks with its padded
buffer. -/
theorem paddingDependsOnlyOnTheMessage : Obligations.PaddingDependsOnlyOnTheMessage := by
  intro s s' hsize hmode hmsg
  obtain ⟨t, he⟩ := exec_next .pad s
  obtain ⟨t', he'⟩ := exec_next .pad s'
  have hlen := padMessage_length s
  have hholds : HoldsBytes s.msg s.padMessage := padMessage_holds fun i hi => (hmsg i hi).1
  have hholds' : HoldsBytes s'.msg s.padMessage := fun i hi => by
    rw [← (hmsg i (hlen ▸ hi)).2, hholds i hi]
  have hnb := exec_pad_nb he
  refine ⟨t, t', he, he', by rw [hnb, exec_pad_nb he', hsize], fun i hi => ?_⟩
  rw [hnb, ← hlen] at hi
  rw [read_pad hholds hlen.symm he hi, read_pad hholds' (hsize ▸ hlen.symm) he' hi, hmode]

end Sys2Proof.Machine
end

section
/-! The datapath functions of the compressor (R94..R97): the nonlinear functions bit by bit, and the rotation in
numbers. -/

namespace Sys2Proof.Machine

/-! ### The nonlinear functions (R94) -/

section Bits

variable (x y z : Word) {i : Nat}

theorem fnF_getLsbD (hi : i < 32) :
    (fnF x y z).getLsbD i = (x.getLsbD i && y.getLsbD i || !x.getLsbD i && z.getLsbD i) := by
  simp [fnF, hi]

theorem fnG_getLsbD (hi : i < 32) :
    (fnG x y z).getLsbD i = (x.getLsbD i && z.getLsbD i || y.getLsbD i && !z.getLsbD i) := by
  simp [fnG, hi]

theorem fnH_getLsbD : (fnH x y z).getLsbD i = (x.getLsbD i ^^ y.getLsbD i ^^ z.getLsbD i) := by
  simp [fnH]

theorem fnI_getLsbD (hi : i < 32) : (fnI x y z).getLsbD i = (y.getLsbD i ^^ (x.getLsbD i || !z.getLsbD i)) := by
  simp [fnI, hi]

end Bits

/-- Settles O34: a bit of the value depends on the three bits at its position, and their eight values are compared with
the tables. -/
theorem nonlinearFunctionsFollowTruthTables : Obligations.NonlinearFunctionsFollowTruthTables := by
  intro x y z i hi
  rw [fnF_getLsbD x y z hi, fnG_getLsbD x y z hi, fnH_getLsbD, fnI_getLsbD x y z hi]
  generalize x.getLsbD i = xi, y.getLsbD i = yi, z.getLsbD i = zi
  revert xi yi zi
  decide

/-! ### The rotation (R97) -/

theorem rotl_toNat (x : Word) (n : Nat) :
    (rotl x n).toNat = (x.toNat * 2 ^ n % 2 ^ 32) ||| (x.toNat / 2 ^ (32 - n)) := by
  rw [rotl, BitVec.toNat_or, BitVec.toNat_shiftLeft, BitVec.toNat_ushiftRight, Nat.shiftLeft_eq,
    Nat.shiftRight_eq_div_pow]

theorem rotl_eq_rotateLeft (x : Word) {n : Nat} (hn : n < 32) : rotl x n = x.rotateLeft n := by
  rw [BitVec.rotateLeft_def, Nat.mod_eq_of_lt hn, rotl]

/-- The two parts of a rotation share no bit, so that their sum is their disjunction. -/
theorem rotl_toNat_add (x : Word) {n : Nat} (hn : n ≤ 32) :
    (rotl x n).toNat = x.toNat * 2 ^ n % 2 ^ 32 + x.toNat / 2 ^ (32 - n) := by
  have hpow : 2 ^ 32 = 2 ^ n * 2 ^ (32 - n) := by rw [← Nat.pow_add, Nat.add_sub_cancel' hn]
  have hhigh : x.toNat * 2 ^ n % 2 ^ 32 = 2 ^ n * (x.toNat % 2 ^ (32 - n)) := by
    rw [hpow, Nat.mul_comm x.toNat, Nat.mul_mod_mul_left]
  have hlow : x.toNat / 2 ^ (32 - n) < 2 ^ n := Nat.div_lt_of_lt_mul (by rw [Nat.mul_comm, ← hpow]; exact x.isLt)
  rw [rotl_toNat, hhigh, Nat.two_pow_add_eq_or_of_lt hlow]

theorem rotl_zero (x : Word) : rotl x 0 = x := by
  apply BitVec.eq_of_toNat_eq
  rw [rotl_toNat_add x (by decide)]
  have := x.isLt
  omega

theorem sAt_bounds : ∀ j : BitVec 6, 4 ≤ sAt j ∧ sAt j ≤ 23 := by
  decide

/-- Settles O35: the rotation in numbers, as the library's, and by 0; the 64 amounts are compared one by one. -/
theorem rotlRotatesLeft : Obligations.RotlRotatesLeft :=
  ⟨fun x n hn => ⟨rotl_toNat x n, rotl_eq_rotateLeft x hn, rotl_zero x⟩, sAt_bounds⟩

end Sys2Proof.Machine
end

section
/-! The micro-operations of a block (R93, R98, R103): what each of them leaves, that the observer does not enter it
(R106), and that the sixty-six of a block compute `Compress` (R105). -/

namespace Sys2Proof.Machine

variable {s t : State}

/-! ### `ENTRY` and `FOLD` -/

theorem exec_entry_eq (s : State) : exec .entry s =
    .next { s with work := s.dig, saved := if s.blk + 1 = s.nb then s.dig else s.saved, uop := 0x0C0 } := by
  simp only [exec, execEntry, State.finalBlock, decide_eq_true_eq]
  rfl

/-- R103, on the final block. -/
theorem exec_fold_final_eq (hlast : s.blk + 1 = s.nb) : exec .fold s =
    .next { s with dig := s.dig.add s.work, fin := s.dig.add s.work, uop := 0x140 } :=
  congrArg _ (if_pos (decide_eq_true hlast))

/-- R103, on another block. -/
theorem exec_fold_other_eq (hother : s.blk + 1 ≠ s.nb) : exec .fold s =
    .next { s with dig := s.dig.add s.work, blk := s.blk + 1, uop := 0x080 } :=
  congrArg _ (if_neg fun hlast => hother (of_decide_eq_true hlast))

/-- Settles O37: with `NB` at least 1 the model's test `BLK + 1 = NB` is the rule's `BLK = NB - 1` (log 10). -/
theorem entryLoadsWorkingRegisters : Obligations.EntryLoadsWorkingRegisters := by
  intro s
  refine ⟨_, exec_entry_eq s, rfl, fun hnb => if_congr ?_ rfl rfl⟩
  omega

/-- Settles O39, by whether the block is the final one. -/
theorem foldAddsWorkingRegisters : Obligations.FoldAddsWorkingRegisters := by
  intro s
  by_cases hlast : s.blk + 1 = s.nb
  · refine ⟨_, exec_fold_final_eq hlast, rfl, BitVec.toNat_add .., BitVec.toNat_add .., BitVec.toNat_add ..,
      BitVec.toNat_add .., fun _ _ => ⟨rfl, rfl, rfl⟩, fun _ hother => ?_⟩
    omega
  · refine ⟨_, exec_fold_other_eq hlast, rfl, BitVec.toNat_add .., BitVec.toNat_add .., BitVec.toNat_add ..,
      BitVec.toNat_add .., fun _ hfinal => ?_, fun _ _ => ⟨rfl, rfl, rfl⟩⟩
    omega

/-! ### The step rule (R98) -/

/-- R98: the next micro-operation as a word. -/
theorem afterStep_eq (j : BitVec 6) :
    afterStep j = if j.toNat = 63 then 0x100 else BitVec.ofNat 10 (0x0C0 + (j.toNat + 1)) := by
  obtain ⟨hlast, huop⟩ | ⟨hlt, huop⟩ := afterStep_cases j
  · rw [huop, if_pos hlast]
  · rw [huop, if_neg (by omega)]

/-- R123: the records of a step, by the snapshot phase. -/
theorem stepRecords_eq (s : State) (j : BitVec 6) (fn : Word → Word → Word → Word) :
    stepRecords s j fn = if s.obs then
      roundRecords s.params.snapPhase j s.work (roundUpdate fn (kAt j) (msgWord s j).1 (sAt j) s.work) else [] := by
  unfold stepRecords roundRecords
  cases s.params.snapPhase <;> rfl

/-- R98: the new working registers in numbers. -/
theorem roundUpdate_workAfterStep (fn : Word → Word → Word → Word) (j : BitVec 6) (m : Word) (q : Quad) :
    WorkAfterStep fn j m q (roundUpdate fn (kAt j) m (sAt j) q) := by
  have hamount : sAt j ≤ 32 := (sAt_bounds j).2.trans (by decide)
  have ht : (q.a + fn q.b q.c q.d + kAt j + m).toNat =
      (q.a.toNat + (fn q.b q.c q.d).toNat + (kAt j).toNat + m.toNat) % 2 ^ 32 := by
    simp only [BitVec.toNat_add, Nat.mod_add_mod]
  refine ⟨rfl, ?_, rfl, rfl⟩
  rw [← ht, ← rotl_toNat_add _ hamount]
  exact BitVec.toNat_add ..

/-- R96: a message word in the buffer is read without a draw. -/
theorem msgWord_of_holdsWord {j : BitVec 6} {m : Word} (h : HoldsWord s.pbuf (64 * s.blk + 4 * msgIndex j) m) :
    msgWord s j = (m, s.draws) :=
  readWord_holds s.draws h

/-- A row that performs the step with function `fn` and whose indices select the message words by `g` follows the step
rule. -/
theorem stepRule_of_row {row : BitVec 6 → Instr} {first : Nat} {fn : Word → Word → Word → Word} {g : Nat → Nat}
    (hexec : ∀ j s, exec (row j) s = .next (s.compressStep j fn))
    (hindex : ∀ j : BitVec 6, first ≤ j.toNat → j.toNat < first + 16 → msgIndex j = g j.toNat) :
    StepRule row first fn g := by
  intro s j hfirst hlast
  refine ⟨_, hexec j s, compressStep_frame s j fn, ?_⟩
  rw [compressStep_eq]
  refine ⟨afterStep_eq j, congrArg _ (stepRecords_eq s j fn), fun m hm => ?_⟩
  rw [← hindex j hfirst hlast] at hm
  rw [msgWord_of_holdsWord hm]
  exact ⟨roundUpdate_workAfterStep fn j m s.work, rfl⟩

/-- Settles O38: each row by its function and the message index of its round (R95). -/
theorem stepsFollowTheStepRule : Obligations.StepsFollowTheStepRule := by
  refine ⟨stepRule_of_row (fun _ _ => rfl) ?_, stepRule_of_row (fun _ _ => rfl) ?_,
    stepRule_of_row (fun _ _ => rfl) ?_, stepRule_of_row (fun _ _ => rfl) ?_⟩ <;>
  · intro j hfirst hlast
    rw [msgIndex_eq]
    split_ifs <;> omega

/-! ### The observer (R106) -/

/-- R123: a step with the observer erased is the step, with the observer erased. -/
theorem compressStep_eraseObserver (s : State) (j : BitVec 6) (fn : Word → Word → Word → Word) :
    s.eraseObserver.compressStep j fn = (s.compressStep j fn).eraseObserver := by
  rw [compressStep_eq, compressStep_eq]
  rfl

/-- R103: the test for the final block does not read the observer. -/
theorem exec_fold_eraseObserver (he : exec .fold s = .next t) :
    exec .fold s.eraseObserver = .next t.eraseObserver := by
  by_cases hlast : s.blk + 1 = s.nb
  · rw [exec_fold_final_eq hlast] at he
    cases he
    exact exec_fold_final_eq (s := s.eraseObserver) hlast
  · rw [exec_fold_other_eq hlast] at he
    cases he
    exact exec_fold_other_eq (s := s.eraseObserver) hlast

/-- R106: erasing the observer commutes with every micro-operation. -/
theorem exec_uop_eraseObserver (u : BitVec 10) (he : exec (decodeUop u) s = .next t) :
    exec (decodeUop u) s.eraseObserver = .next t.eraseObserver := by
  cases hr : reservedWord u with
  | true =>
    rw [decodeUop_reserved u hr] at he ⊢
    cases he; rfl
  | false =>
    obtain ⟨-, hd⟩ | ⟨-, hd⟩ | ⟨-, hd⟩ | ⟨-, hd⟩ | ⟨-, hd⟩ | ⟨-, hd⟩ := decodeUop_cases u hr <;> rw [hd] at he ⊢
    · cases he; rfl
    · cases he; rfl
    · cases he; rfl
    · exact exec_fold_eraseObserver he
    · cases he; rfl
    · rw [exec_stepPseudo] at he ⊢
      cases he
      rw [compressStep_eraseObserver]

/-- Settles O43: both states go where their common erasure goes. -/
theorem observerNeverFeedsTheCore : Obligations.ObserverNeverFeedsTheCore := by
  intro u s s' herase
  obtain ⟨t, he⟩ := exec_next (decodeUop u) s
  obtain ⟨t', he'⟩ := exec_next (decodeUop u) s'
  have hs := exec_uop_eraseObserver u he
  rw [herase, exec_uop_eraseObserver u he'] at hs
  exact ⟨t, t', he, he', (Host.Outcome.next.inj hs).symm⟩

/-! ### The run of a block (R105) -/

/-- Log 4: with no turn pending a core without a fault performs the micro-operation in `uop`. -/
theorem step_core_alone (hf : s.faultRec = none) (hp : s.pending = []) : step s = exec (decodeUop s.uop) s := by
  rw [step_core (.inl hp) hf, dropTurn_of_nil hp]

/-- Where the core stands in a block with message words `m` and `records` in the channel once `ENTRY` and the first `n`
steps have been performed: before step `n`, and before `FOLD` with `n = 64`, whose word is the one after the STEP words
(R64). -/
def State.afterSteps (s : State) (m : Nat → Word) (n : Nat) (records : List ObsRecord) : State :=
  { s with
    work := workAfter m s.dig n
    saved := if s.blk + 1 = s.nb then s.dig else s.saved
    uop := BitVec.ofNat 10 (0x0C0 + n)
    obsch := records }

@[simp] theorem State.afterSteps_uop (s : State) (m : Nat → Word) (n : Nat) (records : List ObsRecord) :
    (s.afterSteps m n records).uop = BitVec.ofNat 10 (0x0C0 + n) := rfl

/-- R98, R105: `STEP j` is the loop body of `Compress` for step `j`. -/
theorem compressStep_afterSteps {m : Nat → Word} {j : BitVec 6}
    (hword : HoldsWord s.pbuf (64 * s.blk + 4 * msgIndex j) (m (msgIndex j))) (records : List ObsRecord) :
    ∃ records', (s.afterSteps m j.toNat records).compressStep j (fnOfRound (roundOf j)) =
      s.afterSteps m (j.toNat + 1) records' := by
  have hread : msgWord (s.afterSteps m j.toNat records) j = (m (msgIndex j), s.draws) := msgWord_of_holdsWord hword
  have huop : afterStep j = BitVec.ofNat 10 (0x0C0 + (j.toNat + 1)) := by
    rw [afterStep_eq]
    split
    case isTrue hlast => rw [hlast]; rfl
    case isFalse => rfl
  rw [compressStep_eq, hread, huop]
  simp only [State.afterSteps, workAfter_toNat_succ]
  exact ⟨_, rfl⟩

/-- R64: the word after the sixty-four steps is `FOLD`. -/
theorem step_afterSteps_fold {m : Nat → Word} (hf : s.faultRec = none) (hp : s.pending = [])
    (records : List ObsRecord) :
    step (s.afterSteps m 64 records) = exec .fold (s.afterSteps m 64 records) := by
  have hfold : decodeUop (BitVec.ofNat 10 (0x0C0 + 64)) = .fold := by decide
  rw [step_core_alone (s := s.afterSteps m 64 records) hf hp, State.afterSteps_uop, hfold]

section Block

variable {m : Nat → Word} (hf : s.faultRec = none) (hp : s.pending = [])
  (hwords : ∀ k < 16, HoldsWord s.pbuf (64 * s.blk + 4 * k) (m k))
include hf hp hwords

/-- A core step within the sixty-four steps of a block. -/
theorem step_afterSteps {n : Nat} (hn : n < 64) (records : List ObsRecord) :
    ∃ records', step (s.afterSteps m n records) = .next (s.afterSteps m (n + 1) records') := by
  obtain ⟨j, rfl⟩ : ∃ j : BitVec 6, j.toNat = n := ⟨BitVec.ofNat 6 n, by simpa using hn⟩
  obtain ⟨records', hstep⟩ := compressStep_afterSteps (hwords _ (msgIndex_lt j)) records
  refine ⟨records', ?_⟩
  have hexec := step_core_alone (s := s.afterSteps m j.toNat records) hf hp
  rw [State.afterSteps_uop, decodeUop_step, exec_stepPseudo, hstep] at hexec
  exact hexec

/-- `ENTRY` and the first `n` steps of a block. -/
theorem run_afterSteps (hu : s.uop = 0x080) (n : Nat) (hn : n ≤ 64) :
    ∃ records, Host.Core.run Sys2Proof.core (n + 1) s = .next (s.afterSteps m n records) := by
  induction n with
  | zero =>
    have hentry : step s = .next (s.afterSteps m 0 s.obsch) := by
      rw [step_core_alone hf hp, hu]
      exact exec_entry_eq s
    exact ⟨s.obsch, run_succ 0 hentry⟩
  | succ n ih =>
    obtain ⟨records, hrun⟩ := ih (by omega)
    obtain ⟨records', hstep⟩ := step_afterSteps hf hp hwords hn records
    exact ⟨records', (run_add (n + 1) 1 hrun).trans (run_succ 0 hstep)⟩

end Block

/-- Settles O44: `ENTRY` and the sixty-four steps, then `FOLD`, by whether the block is the final one. -/
theorem blockRunComputesCompress : Obligations.BlockRunComputesCompress := by
  intro s m hu hf hp hwords
  obtain ⟨records, hrun⟩ := run_afterSteps hf hp hwords hu 64 (le_refl 64)
  have hlastStep := fun t (he : exec .fold (s.afterSteps m 64 records) = .next t) =>
    (run_add 65 1 hrun).trans (run_succ 0 ((step_afterSteps_fold hf hp records).trans he))
  by_cases hlast : s.blk + 1 = s.nb
  · exact ⟨_, hlastStep _ (exec_fold_final_eq hlast), rfl, rfl, rfl, fun _ => ⟨rfl, rfl, if_pos hlast, rfl⟩,
      fun hother => absurd hlast hother⟩
  · exact ⟨_, hlastStep _ (exec_fold_other_eq hlast), rfl, rfl, rfl, fun hfinal => absurd hfinal hlast,
      fun _ => ⟨rfl, rfl, if_neg hlast, rfl⟩⟩

end Sys2Proof.Machine
end

section
/-! The renderings of the observer's records (R125..R131): the numerals and the joined forms, character by character. -/

namespace Sys2Proof.Machine

/-! ### Numerals (R125, R126, R127) -/

/-- Digits of a number in a base, from position `n - 1` downward, make up the number without its last places. -/
theorem numeralValue_range {base n x : Nat} {digit : Nat → Char} (hx : x < base ^ n)
    (hdigit : ∀ k < n, hexDigits.idxOf (digit k) = x / base ^ (n - 1 - k) % base) (m : Nat) (hm : m ≤ n) :
    numeralValue base ((List.range m).map digit) = x / base ^ (n - m) := by
  induction m with
  | zero => exact (Nat.div_eq_of_lt hx).symm
  | succ m ih =>
    have hpow : base ^ (n - m) = base ^ (n - 1 - m) * base := by
      rw [← Nat.pow_succ]; congr 1; omega
    have hinit : numeralValue base ((List.range m).map digit) = x / base ^ (n - 1 - m) / base := by
      rw [ih (by omega), hpow, Nat.div_div_eq_div_mul]
    rw [numeralValue] at hinit ⊢
    rw [List.range_succ, List.map_append, List.foldl_append, hinit, List.map_singleton, List.foldl_cons, List.foldl_nil,
      hdigit m hm, Nat.div_add_mod, Nat.sub_sub, Nat.add_comm 1 m]

/-- The digits of a number below `base ^ n` at its `n` positions are a numeral of the number. -/
theorem numeralValue_eq {base n x : Nat} {digit : Nat → Char} (hx : x < base ^ n)
    (hdigit : ∀ k < n, hexDigits.idxOf (digit k) = x / base ^ (n - 1 - k) % base) :
    numeralValue base ((List.range n).map digit) = x := by
  rw [numeralValue_range hx hdigit n (le_refl n), Nat.sub_self, Nat.pow_zero, Nat.div_one]

theorem getElem?_map_range {α : Type} (f : Nat → α) {n k : Nat} (hk : k < n) :
    ((List.range n).map f)[k]? = some (f k) := by
  rw [List.getElem?_map, List.getElem?_range hk, Option.map_some]

theorem idxOf_bitChar (b : Bool) : hexDigits.idxOf (bitChar b) = b.toNat := by
  revert b; decide

/-- The digit of a bit is the bit's base-2 digit. -/
theorem idxOf_bitChar_getLsbD {n : Nat} (v : BitVec n) (i : Nat) :
    hexDigits.idxOf (bitChar (v.getLsbD i)) = v.toNat / 2 ^ i % 2 := by
  rw [idxOf_bitChar, ← BitVec.testBit_toNat, Nat.toNat_testBit]

/-- Settles O50: bit `7 - k` or `31 - k` is the base-2 digit at its position. -/
theorem binaryNumeralsAreMsbFirst : Obligations.BinaryNumeralsAreMsbFirst :=
  ⟨fun v => ⟨rfl, numeralValue_eq v.isLt fun _ _ => idxOf_bitChar_getLsbD v _, fun _ hk => getElem?_map_range _ hk⟩,
    fun w => ⟨rfl, numeralValue_eq w.isLt fun _ _ => idxOf_bitChar_getLsbD w _, fun _ hk => getElem?_map_range _ hk⟩⟩

theorem idxOf_hexChar (n : BitVec 4) : hexDigits.idxOf (hexChar n) = n.toNat := by
  revert n; decide

theorem some_hexChar (n : BitVec 4) : some (hexChar n) = "0123456789abcdef".toList[n.toNat]? := by
  revert n; decide

/-- R127: the bits `w[31-4k : 28-4k]` are the base-16 digit of the word at position `7 - k`. -/
theorem extract_hexDigit (w : Word) {k : Nat} (hk : k < 8) :
    (w.extractLsb' (28 - 4 * k) 4).toNat = w.toNat / 16 ^ (7 - k) % 16 := by
  have hpow : 2 ^ (28 - 4 * k) = 16 ^ (7 - k) := by
    rw [show 28 - 4 * k = 4 * (7 - k) by omega, Nat.pow_mul]
  rw [BitVec.extractLsb'_toNat, Nat.shiftRight_eq_div_pow, hpow]

/-- Settles O51: the four bits of character `k` are the base-16 digit at its position. -/
theorem hex8IsTheHexNumeral : Obligations.Hex8IsTheHexNumeral := by
  intro w
  refine ⟨rfl, numeralValue_eq w.isLt fun k hk => ?_, fun k hk => ?_⟩
  · rw [idxOf_hexChar, extract_hexDigit w hk]
  · rw [← extract_hexDigit w hk, ← some_hexChar]
    exact getElem?_map_range _ hk

/-! ### Texts of equal length in a row (R128, R129) -/

section Rows

variable {α β : Type} {f : α → List β} {n : Nat} (hf : ∀ x, (f x).length = n)
include hf

theorem length_flatMap_of_length (l : List α) : (l.flatMap f).length = n * l.length := by
  induction l with
  | nil => rfl
  | cons x l ih => rw [List.flatMap_cons, List.length_append, hf, ih, List.length_cons, Nat.mul_succ, Nat.add_comm]

/-- Position `i` of part `k` of a row of parts of length `n`. -/
theorem getElem?_flatMap_of_length {i : Nat} (hi : i < n) (l : List α) (k : Nat) (hk : k < l.length) :
    (l.flatMap f)[n * k + i]? = (f l[k])[i]? := by
  induction l generalizing k with
  | nil => exact absurd hk (Nat.not_lt_zero k)
  | cons x l ih =>
    rw [List.flatMap_cons]
    cases k with
    | zero => rw [Nat.mul_zero, Nat.zero_add, List.getElem?_append_left (by rwa [hf])]; rfl
    | succ k =>
      have hpos : n * (k + 1) + i = n + (n * k + i) := by rw [Nat.mul_succ]; omega
      rw [hpos, ← hf x, List.getElem?_append_right (Nat.le_add_right ..), Nat.add_sub_cancel_left, hf x]
      exact ih k (Nat.lt_of_succ_lt_succ hk)

end Rows

theorem hex2_length (v : Byte) : (hex2 v).length = 2 := rfl

/-- R128: the digit of the high half of a byte, then that of the low half. -/
theorem hex2_getElem? (v : Byte) :
    (hex2 v)[0]? = "0123456789abcdef".toList[v.toNat / 16]? ∧
    (hex2 v)[1]? = "0123456789abcdef".toList[v.toNat % 16]? := by
  have hhigh : (v.extractLsb' 4 4).toNat = v.toNat / 16 := by
    rw [BitVec.extractLsb'_toNat, Nat.shiftRight_eq_div_pow]; have := v.isLt; omega
  have hlow : (v.extractLsb' 0 4).toNat = v.toNat % 16 := by
    rw [BitVec.extractLsb'_toNat, Nat.shiftRight_zero]
  rw [← hhigh, ← hlow, ← some_hexChar, ← some_hexChar]
  exact ⟨rfl, rfl⟩

/-- Settles O52: a row of two characters for each byte. -/
theorem hex32RendersBytesInOrder : Obligations.Hex32RendersBytesInOrder := by
  intro d
  refine ⟨length_flatMap_of_length hex2_length d, fun i hi => ?_⟩
  rw [List.getD_eq_getElem _ _ hi, ← (hex2_getElem? d[i]).1, ← (hex2_getElem? d[i]).2]
  exact ⟨getElem?_flatMap_of_length hex2_length (i := 0) Nat.two_pos d i hi,
    getElem?_flatMap_of_length hex2_length Nat.one_lt_two d i hi⟩

/-- R129: with a space after the last one too, the joined texts are a row of texts that end in a space. -/
theorem joinWithSpace_append_space (ts : List Text) (h : ts ≠ []) :
    joinWithSpace ts ++ [' '] = ts.flatMap (· ++ [' ']) := by
  induction ts using joinWithSpace.induct with
  | case1 => exact absurd rfl h
  | case2 t => simp [joinWithSpace]
  | case3 t u ts ih =>
    rw [joinWithSpace, List.flatMap_cons, ← ih (List.cons_ne_nil u ts)]
    simp

/-- R129: a byte's string and the space after it. -/
def bin8Space (v : Byte) : Text := bin8 v ++ [' ']

theorem bin8Space_length (v : Byte) : (bin8Space v).length = 9 := rfl

theorem renderBlockJoined_append_space {block : List Byte} (h : block ≠ []) :
    renderBlockJoined block ++ [' '] = block.flatMap bin8Space := by
  rw [renderBlockJoined, renderBlock, joinWithSpace_append_space _ (by simpa using h), List.flatMap_map]
  rfl

/-- Settles O53: a block's joined form is a row of nine characters for each byte, without the last of them. -/
theorem paddedRecordRendering : Obligations.PaddedRecordRendering := by
  refine ⟨fun _ _ => rfl, fun block hblock => ?_⟩
  have hrow := renderBlockJoined_append_space (block := block) (by rintro rfl; cases hblock)
  have hlen : (renderBlockJoined block).length = 575 := by
    have := congrArg List.length hrow
    rw [length_flatMap_of_length bin8Space_length, List.length_append, hblock] at this
    exact Nat.succ.inj this
  have hread : ∀ k < 64, ∀ i < 9, 9 * k + i < 575 →
      (renderBlockJoined block)[9 * k + i]? = (bin8Space (block.getD k 0))[i]? := fun k hk i hi hlt => by
    rw [List.getD_eq_getElem _ _ (hblock ▸ hk), ← getElem?_flatMap_of_length bin8Space_length hi, ← hrow,
      List.getElem?_append_left (hlen ▸ hlt)]
  refine ⟨hlen, fun k hk => ⟨fun i hi => ?_, fun hk' => hread k hk 8 (by decide) (by omega)⟩⟩
  rw [hread k hk i (by omega) (by omega)]
  exact List.getElem?_append_left hi

/-- Settles O57: the renderings are the definition's own clauses. -/
theorem roundAndFinalRecordRendering : Obligations.RoundAndFinalRecordRendering :=
  ⟨fun _ _ _ _ _ => rfl, fun _ _ _ => rfl⟩

end Sys2Proof.Machine
end

section
/-! The records of a computation (R122..R124, R132): which records each micro-operation emits, how many ROUND records
the core steps of a computation have emitted, and that they come in order under every interleaving (R55). -/

namespace Sys2Proof.Machine

variable {s t u s₀ : State} {message : List Byte} {left nb : Nat} {phase : SnapPhase}
  {new new' records : List ObsRecord}

/-! ### The FINAL record (R124) -/

theorem quad_add_sub_cancel (p q : Quad) : (p.add q).sub p = q := by
  simp [Quad.add, Quad.sub]

theorem quad_add_comm (p q : Quad) : p.add q = q.add p := by
  simp [Quad.add, BitVec.add_comm]

/-- Settles O42: at `FINAL` both `FA..FD` and `A..D` are the saved plus the working registers (R103, R25). -/
theorem finalRecordReconstructsTheFold : Obligations.FinalRecordReconstructsTheFold := by
  intro s h hu hobs
  obtain ⟨-, -, hdig, hsum⟩ := h.finalReady (by simp [State.inClass, hu])
  refine ⟨_, _, _, rfl, if_pos hobs, ?working, ?fold⟩
  case working => rw [hsum, quad_add_sub_cancel]
  case fold => rw [hsum, quad_add_sub_cancel, ← hdig, hsum]; exact quad_add_comm ..

/-! ### What each micro-operation emits (R121..R124) -/

/-- R121: from `s` to `t` the records `new` are emitted: `OBS` stays, and the channel takes them only with `OBS = 1`. -/
structure Emits (s t : State) (new : List ObsRecord) : Prop where
  obs : t.obs = s.obs
  obsch : t.obsch = s.obsch ++ if s.obs then new else []

theorem Emits.off (h : Emits s t new) (hobs : s.obs = false) : t.obsch = s.obsch := by
  rw [h.obsch, hobs]; exact List.append_nil _

theorem Emits.on (h : Emits s t new) (hobs : s.obs = true) : t.obsch = s.obsch ++ new := by
  rw [h.obsch, hobs]; rfl

theorem Emits.of_eq (hobs : t.obs = s.obs) (hch : t.obsch = s.obsch) : Emits s t [] :=
  ⟨hobs, by rw [hch, ite_self, List.append_nil]⟩

theorem Emits.of_dropTurn (h : Emits s.dropTurn t new) : Emits s t new :=
  ⟨h.obs, h.obsch⟩

theorem Emits.trans (h : Emits s t new) (h' : Emits t u new') : Emits s u (new ++ new') := by
  refine ⟨h'.obs.trans h.obs, ?_⟩
  cases hobs : s.obs
  · rw [h'.off (h.obs.trans hobs), h.off hobs]; exact (List.append_nil _).symm
  · rw [h'.on (h.obs.trans hobs), h.on hobs]; exact List.append_assoc ..

theorem emit_emits (s : State) (r : ObsRecord) : Emits s (s.emit r) [r] := by
  refine ⟨rfl, ?_⟩
  rw [emit_obsch]
  cases s.obs
  · exact (List.append_nil _).symm
  · rfl

theorem exec_pad_emits (he : exec .pad s = .next t) :
    Emits s t [.padded (blockCount s.size.toNat) (splitBlocks (blockCount s.size.toNat) s.paddedBytes)] := by
  rw [← exec_pad_nb he]
  refine ⟨?_, exec_pad_obsch he⟩
  cases he
  rfl

theorem exec_entry_emits (he : exec .entry s = .next t) : Emits s t [] := by
  cases he
  exact .of_eq rfl rfl

theorem exec_fold_emits (he : exec .fold s = .next t) : Emits s t [] := by
  have hf := exec_frame _ he
  rw [Frame] at hf
  exact .of_eq (by rw [hf]) (by rw [hf])

theorem compressStep_emits (s : State) (j : BitVec 6) (fn : Word → Word → Word → Word) :
    Emits s (s.compressStep j fn) (roundRecords s.params.snapPhase j s.work
      (roundUpdate fn (kAt j) (msgWord s j).1 (sAt j) s.work)) := by
  rw [compressStep_eq, stepRecords_eq]
  exact ⟨rfl, rfl⟩

theorem exec_final_emits (he : exec .final s = .next t) : Emits s t [s.finalRecord] := by
  cases he
  exact ⟨rfl, (emit_emits (State.setUop { s with digest := s.dig, done := true } uopHalt) s.finalRecord).obsch⟩

/-! ### The ROUND records of the steps (R123) -/

/-- R123: how many ROUND records the first `n` core steps after `PAD` emit, of which each block takes 66: `ENTRY`, the
sixty-four steps and `FOLD`. -/
def roundCount (phase : SnapPhase) (n : Nat) : Nat :=
  4 * (n / 66) + if phase = .afterLast then (n % 66 - 1) / 16 else (n % 66 + 14) / 16

/-- Within block `b`, by the steps since its `ENTRY`. -/
theorem roundCount_block (phase : SnapPhase) (b : Nat) {i : Nat} (hi : i < 66) :
    roundCount phase (66 * b + i) = 4 * b + if phase = .afterLast then (i - 1) / 16 else (i + 14) / 16 := by
  rw [roundCount, Nat.mul_add_div (by decide), Nat.mul_add_mod, Nat.div_eq_of_lt hi, Nat.mod_eq_of_lt hi, Nat.add_zero]

/-- R132: the core step after the first `n` emits the ROUND record that is next in order, or none. -/
inductive NextRound (phase : SnapPhase) (n : Nat) : List ObsRecord → Prop
  | none (count : roundCount phase (n + 1) = roundCount phase n) : NextRound phase n []
  | one (q : Quad) (count : roundCount phase (n + 1) = roundCount phase n + 1) :
    NextRound phase n [.round (roundCount phase n % 4 + 1) q.a q.b q.c q.d]

theorem nextRound_entry (phase : SnapPhase) (b : Nat) : NextRound phase (66 * b) [] := by
  refine .none ?_
  unfold roundCount; split <;> omega

theorem nextRound_fold (phase : SnapPhase) (b : Nat) : NextRound phase (66 * b + 65) [] := by
  refine .none ?_
  unfold roundCount; split <;> omega

/-- R123: the snapshot of a round is taken in its last step with `AFTER_LAST`, else in its first. -/
theorem roundRecords_snapshot (phase : SnapPhase) (j : BitVec 6) (before after : Quad) :
    ∃ q : Quad, roundRecords phase j before after =
      if j.toNat % 16 = (if phase = .afterLast then 15 else 0) then [.round (j.toNat / 16 + 1) q.a q.b q.c q.d]
      else [] := by
  cases phase with
  | afterFirst => exact ⟨after, rfl⟩
  | beforeFirst => exact ⟨before, rfl⟩
  | afterLast => exact ⟨after, rfl⟩

/-- R123: `STEP j` of block `b` comes after `ENTRY` and `j` steps. -/
theorem nextRound_step (phase : SnapPhase) (b : Nat) (j : BitVec 6) (before after : Quad) :
    NextRound phase (66 * b + (j.toNat + 1)) (roundRecords phase j before after) := by
  have hj := j.isLt
  obtain ⟨q, hq⟩ := roundRecords_snapshot phase j before after
  rw [hq]
  have hcount := roundCount_block phase b (show j.toNat + 1 < 66 by omega)
  have hcount' := roundCount_block phase b (show j.toNat + 1 + 1 < 66 by omega)
  by_cases hsnap : j.toNat % 16 = if phase = .afterLast then 15 else 0
  · have hround : roundCount phase (66 * b + (j.toNat + 1)) % 4 = j.toNat / 16 := by
      split_ifs at hcount hsnap <;> omega
    rw [if_pos hsnap, ← hround]
    refine .one q (hcount'.trans ?_)
    rw [hcount]; split_ifs at hsnap ⊢ <;> omega
  · rw [if_neg hsnap]
    refine .none (hcount'.trans ?_)
    rw [hcount]; split_ifs at hsnap ⊢ <;> omega

/-- The ROUND records of the snapshots `regs`, four to a block. -/
def roundList (regs : List Quad) : List ObsRecord :=
  regs.mapIdx fun i q => .round (i % 4 + 1) q.a q.b q.c q.d

theorem roundList_append_one (regs : List Quad) (q : Quad) :
    roundList (regs ++ [q]) = roundList regs ++ [.round (regs.length % 4 + 1) q.a q.b q.c q.d] :=
  List.mapIdx_append_one

/-- R132: the records a computation of `blocks` blocks has emitted with `left` core steps to come after the next one:
none before `PAD`, then the PADDED record and ROUND records in order. -/
inductive RecordsSoFar (phase : SnapPhase) (nb left : Nat) : List ObsRecord → Prop
  | start (steps : left = 66 * nb + 1) : RecordsSoFar phase nb left []
  | padded (blocks : List (List Byte)) (regs : List Quad) (n : Nat) (steps : left + n = 66 * nb)
    (count : regs.length = roundCount phase n) : RecordsSoFar phase nb left (.padded nb blocks :: roundList regs)

theorem RecordsSoFar.pad (h : RecordsSoFar phase nb (left + 1) records) (hleft : left = 66 * nb)
    (blocks : List (List Byte)) : RecordsSoFar phase nb left (records ++ [.padded nb blocks]) := by
  cases h with
  | start => exact .padded blocks [] 0 hleft (by simp [roundCount])
  | padded _ _ _ steps => omega

theorem RecordsSoFar.next (h : RecordsSoFar phase nb (left + 1) records) {n : Nat} (hn : left + 1 + n = 66 * nb)
    (hnew : NextRound phase n new) : RecordsSoFar phase nb left (records ++ new) := by
  cases h with
  | start steps => omega
  | padded blocks regs n' steps count =>
    obtain rfl : n' = n := by omega
    cases hnew with
    | none same =>
      rw [List.append_nil]
      exact .padded blocks regs (n' + 1) (by omega) (count.trans same.symm)
    | one q succ =>
      rw [← count, List.cons_append, ← roundList_append_one]
      exact .padded blocks (regs ++ [q]) (n' + 1) (by omega) (by simp [succ, count])

/-- After the last step before `FINAL` there are four ROUND records for each block. -/
theorem RecordsSoFar.complete (h : RecordsSoFar phase nb 0 records) : ∃ blocks regs,
    records = .padded nb blocks :: roundList regs ∧ regs.length = 4 * nb := by
  cases h with
  | start steps => omega
  | padded blocks regs n steps count =>
    refine ⟨blocks, regs, rfl, ?_⟩
    rw [count, roundCount]
    split <;> omega

/-! ### The records along a computation (R132) -/

/-- Since `s₀` a computation of `message` with `left` core steps to come after the next one has emitted the records
of R132. -/
def Recorded (s₀ : State) (message : List Byte) (left : Nat) (s : State) : Prop :=
  ∃ records, RecordsSoFar s₀.params.snapPhase (blockCount message.length) left records ∧ Emits s₀ s records

/-- R68, R132: a core step that is not the last emits what comes next in order. -/
theorem Recorded.exec_uop (h : Recorded s₀ message (left + 1) s) (hrun : Running s₀ message (left + 1) s)
    (he : exec (decodeUop s.uop) s = .next t) : Recorded s₀ message left t := by
  obtain ⟨records, hrecords, hemits⟩ := h
  cases hrun.stage with
  | pad uop size dig steps =>
    rw [uop] at he
    have hpad := exec_pad_emits he
    rw [size] at hpad
    exact ⟨_, hrecords.pad (by omega) _, hemits.trans hpad⟩
  | entry b uop block steps =>
    rw [uop] at he
    have := block.lt
    exact ⟨_, hrecords.next (by omega) (nextRound_entry _ b), hemits.trans (exec_entry_emits he)⟩
  | step b j uop block work steps =>
    rw [uop, decodeUop_step, exec_stepPseudo] at he
    cases he
    have := block.lt
    have hstep := compressStep_emits s j (fnOfRound (roundOf j))
    rw [hrun.params] at hstep
    exact ⟨_, hrecords.next (by omega) (nextRound_step _ b j _ _), hemits.trans hstep⟩
  | fold b uop block work steps =>
    rw [uop] at he
    have := block.lt
    exact ⟨_, hrecords.next (by omega) (nextRound_fold _ b), hemits.trans (exec_fold_emits he)⟩
  | final _ _ steps => omega

theorem Recorded.of_same (h : Recorded s₀ message left s) (hobs : t.obs = s.obs) (hch : t.obsch = s.obsch) :
    Recorded s₀ message left t := by
  obtain ⟨records, hrecords, hemits⟩ := h
  refine ⟨records, hrecords, ?_⟩
  rw [← List.append_nil records]
  exact hemits.trans (.of_eq hobs hch)

/-- R133: the last core step emits the FINAL record with the digest's bytes. -/
theorem Running.final_emits (h : Running s₀ message 0 s) (he : exec (decodeUop s.uop) s = .next t) :
    ∃ w v, Emits s t [.final w v (md5 s₀.params.lenHiMode message).bytes] := by
  cases h.stage with
  | final uop dig =>
    rw [uop] at he
    rw [← dig]
    exact ⟨_, _, exec_final_emits he⟩
  | pad _ _ _ steps => omega
  | entry b _ block steps => have := block.lt; omega
  | step b j _ block _ steps => have := block.lt; have := j.isLt; omega
  | fold b _ block _ steps => have := block.lt; omega

/-- A turn of the core or the host keeps the account of the records. -/
theorem Recorded.turn {turn : Turn} {rest : List Turn} (h : Recorded s₀ message (left + [turn].count .core) s)
    (hrun : Running s₀ message (left + [turn].count .core) s) (hp : s.pending = turn :: rest) (hturn : turn ≠ .reset)
    (hstep : step s = .next t) : Recorded s₀ message left t := by
  cases turn with
  | core =>
    rw [step_core (.inr ⟨rest, hp⟩) hrun.noFault] at hstep
    exact Recorded.exec_uop (s := s.dropTurn) (h.of_same rfl rfl) hrun.dropTurn hstep
  | host hd v =>
    rw [step_host hp] at hstep
    have ht := exec_host_busy (s := s.dropTurn) hrun.dropTurn.stage.busy hstep
    exact h.of_same (by rw [ht]; rfl) (by rw [ht]; rfl)
  | reset => exact absurd rfl hturn

theorem step_of_run_one (h : Host.Core.run Sys2Proof.core 1 s = .next t) : step s = .next t := by
  obtain ⟨u, hstep, hrun⟩ := coreRun_succ_inv Sys2Proof.core 0 s t h
  cases hrun
  exact hstep

/-- R55: turns without a reset keep the account of the records, whatever host transactions stand between the core's
steps. -/
theorem Recorded.run_turns {rest : List Turn} (turns : List Turn) (hreset : ∀ turn ∈ turns, turn ≠ .reset) :
    ∀ s, Recorded s₀ message (left + turns.count .core) s → Running s₀ message (left + turns.count .core) s →
      s.pending = turns ++ rest →
      ∃ t, Host.Core.run Sys2Proof.core turns.length s = .next t ∧ Recorded s₀ message left t ∧
        Running s₀ message left t ∧ t.pending = rest := by
  induction turns with
  | nil => exact fun s h hrunning hp => ⟨s, run_zero s, h, hrunning, hp⟩
  | cons turn turns ih =>
    intro s h hrunning hp
    obtain ⟨hturn, hreset⟩ := List.forall_mem_cons.1 hreset
    rw [← List.singleton_append, List.count_append, Nat.add_comm ([turn].count _), ← Nat.add_assoc] at h hrunning
    obtain ⟨u, hfirst, hu, hpu⟩ := Running.run_turns [turn] (by simpa using hturn) s hrunning hp
    have hstep := step_of_run_one hfirst
    obtain ⟨t, hrun, ht⟩ := ih hreset u (h.turn hrunning hp hturn hstep) hu hpu
    exact ⟨t, (run_succ _ hstep).trans hrun, ht⟩

/-- R143: START latches `OBS_EN` into `OBS` and leaves the channel. -/
theorem StartReady.step_start_observer {wdata : Word} {turns : List Turn} (h : StartReady s message wdata turns)
    (hstep : step s = .next t) : t.obs = wdata.getLsbD 1 ∧ t.obsch = s.obsch := by
  have hidle : s.dropTurn.busy = false := h.idle
  have ht : Host.Outcome.next (if s.dropTurn.busy then s.dropTurn else s.dropTurn.writeCtrl wdata) =
      Host.Outcome.next t := (step_host h.issued).symm.trans hstep
  rw [hidle, writeCtrl_accepts h.start (h.length ▸ h.fits)] at ht
  cases ht
  exact ⟨rfl, rfl⟩

/-- Settles O49: START, the turns up to the last one, which leave the core before `FINAL` with all ROUND records
emitted, and the core's last turn. -/
theorem computationRecordsInOrder : Obligations.ComputationRecordsInOrder := by
  intro s message wdata turns hready hreset hlast hcount
  obtain ⟨init, rfl⟩ := List.getLast?_eq_some_iff.1 hlast
  rw [← blockCount_eq, List.count_append, List.count_singleton_self] at hcount
  obtain ⟨s₀, hstart, hrunning₀, hp₀, -, -, -, hparams⟩ := hready.step_start
  obtain ⟨hobs, hch⟩ := hready.step_start_observer hstart
  have hrecorded₀ : Recorded s₀ message (66 * blockCount message.length + 1) s₀ := ⟨[], .start rfl, .of_eq rfl rfl⟩
  rw [show 66 * blockCount message.length + 1 = 0 + init.count .core by omega] at hrunning₀ hrecorded₀
  obtain ⟨u, hrun, ⟨records, hrecords, hbefore⟩, hu, hpu⟩ :=
    Recorded.run_turns init (fun turn hturn => hreset turn (List.mem_append_left _ hturn)) s₀ hrecorded₀ hrunning₀ hp₀
  obtain ⟨t, hfinal, -, -⟩ := hu.last_turn hpu
  obtain ⟨w, v, hend⟩ := hu.dropTurn.final_emits ((step_core (.inr ⟨_, hpu⟩) hu.noFault).symm.trans hfinal)
  have hall := hbefore.trans hend.of_dropTurn
  refine ⟨t, ?run, fun hoff => (hall.off (hobs.trans hoff)).trans hch, fun hon => ?records⟩
  case run =>
    rw [List.length_append, Nat.add_comm, run_succ _ hstart, run_add _ _ hrun]
    exact run_succ 0 hfinal
  case records =>
    obtain ⟨blocks, regs, rfl, hregs⟩ := hrecords.complete
    rw [← blockCount_eq]
    refine ⟨blocks, regs, w, v, _, hregs, rfl, ?_⟩
    rw [hall.on (hobs.trans hon), hch, hparams, List.append_assoc, List.append_assoc]
    rfl

end Sys2Proof.Machine
end

section
/-! The finalizer (44_finalizer.md): what `FINAL` leaves (R133), how `HALT` is left (R134), and a computation with the
core alone (R183, R135), in which nothing is drawn and the host reads nothing. -/

namespace Sys2Proof.Machine

variable {s t s₀ : State} {message : List Byte} {left : Nat}

/-! ### `FINAL` (R133) -/

/-- R7 `sub32`, in numbers. -/
theorem word_sub_toNat (x y : Word) : (x - y).toNat = (x.toNat + 2 ^ 32 - y.toNat) % 2 ^ 32 := by
  have hy := y.isLt
  rw [BitVec.toNat_sub, ← Nat.sub_add_comm hy.le, Nat.add_comm (2 ^ 32)]

/-- R8: a byte of a word, in numbers. -/
theorem bytesLE_getD_toNat (w : Word) {i : Nat} (hi : i < 4) :
    ((bytesLE w).getD i 0).toNat = w.toNat / 2 ^ (8 * i) % 256 := by
  rw [List.getD_eq_getElem _ _ (by rwa [bytesLE_length]), bytesLE_getElem w i hi, BitVec.extractLsb'_toNat,
    Nat.shiftRight_eq_div_pow]

/-- R133: the four bytes of each register, in the registers' order. -/
theorem quad_bytes_getD (q : Quad) {i : Nat} (hi : i < 4) :
    q.bytes.getD i 0 = (bytesLE q.a).getD i 0 ∧ q.bytes.getD (4 + i) 0 = (bytesLE q.b).getD i 0 ∧
    q.bytes.getD (8 + i) 0 = (bytesLE q.c).getD i 0 ∧ q.bytes.getD (12 + i) 0 = (bytesLE q.d).getD i 0 := by
  interval_cases i <;> exact ⟨rfl, rfl, rfl, rfl⟩

/-- Settles O40: the record is `finalRecord`, register by register and byte by byte. -/
theorem finalPacksTheDigest : Obligations.FinalPacksTheDigest := by
  intro s
  refine ⟨_, s.fin.sub s.saved, s.dig.bytes, rfl, rfl, (exec_final_emits rfl).obsch, word_sub_toNat ..,
    word_sub_toNat .., word_sub_toNat .., word_sub_toNat .., rfl, fun i hi => ?_⟩
  obtain ⟨ha, hb, hc, hd⟩ := quad_bytes_getD s.dig hi
  rw [ha, hb, hc, hd]
  exact ⟨bytesLE_getD_toNat _ hi, bytesLE_getD_toNat _ hi, bytesLE_getD_toNat _ hi, bytesLE_getD_toNat _ hi⟩

/-! ### `HALT` (R134) -/

/-- R142, R144: `WR_CTRL` with START and a length that does not fit, of an idle core, is a rejected START. -/
theorem writeCtrl_rejects {v : Word} (hstart : v.getLsbD 0 = true)
    (hlong : ¬ s.msgLen.toNat ≤ s.params.maxMsgBytes.val) :
    s.writeCtrl v = State.startRejected { s with obsEn := v.getLsbD 1 } := by
  rw [State.writeCtrl, if_pos hstart]
  exact if_neg fun hfits => hlong (of_decide_eq_true hfits)

/-- R142..R144: `WR_CTRL` of an idle core writes `uop` only as an accepted START. -/
theorem writeCtrl_uop (s : State) (v : Word) : (s.writeCtrl v).uop =
    if v.getLsbD 0 = true ∧ s.msgLen.toNat ≤ s.params.maxMsgBytes.val then 0x040 else s.uop := by
  by_cases hstart : v.getLsbD 0 = true
  · by_cases hfits : s.msgLen.toNat ≤ s.params.maxMsgBytes.val
    · rw [writeCtrl_accepts hstart hfits, if_pos ⟨hstart, hfits⟩]
      rfl
    · rw [writeCtrl_rejects hstart hfits, if_neg fun h => hfits h.2]
      rfl
  · rw [State.writeCtrl, if_neg hstart, if_neg fun h => hstart h.1]

/-- R17, R71: the one transaction that can change `uop` is `WR_CTRL`, whose header is `we = 1` with `wa = 0`. -/
theorem header_of_host_changes_uop {h : BitVec 31} {v : Word} (he : exec (decodeHost h v) s = .next t)
    (hne : t.uop ≠ s.uop) : h = 0x40000000 := by
  have hword := (encodeOfDecodeIsWord.2 h v).1
  obtain ⟨hwriter, -⟩ := elementsChangeOnlyByTheirWriters _ s t he
  obtain ⟨v', hi⟩ | hi | hi | hi | hi | ⟨j, hi | hi | hi | hi⟩ := hwriter hne <;> rw [hi] at hword
  · exact (Fetched.host.inj hword).1.symm
  all_goals cases hword

/-- R142, R143: a transaction that changes `uop` is an accepted START. -/
theorem start_of_host_changes_uop {h : BitVec 31} {v : Word} (he : exec (decodeHost h v) s = .next t)
    (hne : t.uop ≠ s.uop) :
    t.uop = 0x040 ∧ s.msgLen.toNat ≤ s.params.maxMsgBytes.val ∧ v.getLsbD 0 = true := by
  obtain rfl | ⟨r, d, rfl⟩ | ⟨-, rfl⟩ | ⟨-, rfl⟩ | ⟨-, w, -, rfl⟩ := exec_host_cases h v he
  case inr.inr.inr.inl =>
    rw [writeCtrl_uop] at hne ⊢
    split at hne
    case isTrue haccepted => exact ⟨if_pos haccepted, haccepted.2, haccepted.1⟩
    case isFalse => exact absurd rfl hne
  all_goals exact absurd rfl hne

/-- Settles O41: at `HALT` a core turn and a reset leave `uop` as it is, and the host changes it only by START. -/
theorem haltIsLeftOnlyThroughStart : Obligations.HaltIsLeftOnlyThroughStart := by
  refine ⟨fun _ => rfl, fun s t hu hstep hne => ?_⟩
  obtain ⟨-, -, he⟩ | ⟨h, v, rest, hp, he⟩ | ⟨-, -, rfl⟩ := step_cases hstep
  case inl =>
    rw [hu] at he
    cases he
    exact absurd hu hne
  case inr.inl =>
    rw [← hu] at hne
    obtain ⟨huop, hfits, hstart⟩ := start_of_host_changes_uop he hne
    obtain rfl := header_of_host_changes_uop he hne
    exact ⟨huop, hfits, v, rest, hp, hstart⟩
  case inr.inr => exact absurd rfl hne

/-! ### A computation with the core alone (R183, R135) -/

/-- Log 3, log 6: from `s` to `t` nothing is drawn and the host reads nothing. -/
structure Unread (s t : State) : Prop where
  rsp : t.rsp = s.rsp
  draws : t.draws = s.draws

theorem Unread.trans {u : State} (h : Unread s t) (h' : Unread t u) : Unread s u :=
  ⟨h'.rsp.trans h.rsp, h'.draws.trans h.draws⟩

/-- R70, R142: START reads nothing. -/
theorem StartReady.start_unread {wdata : Word} {turns : List Turn} (h : StartReady s message wdata turns)
    (hstep : step s = .next t) : Unread s t := by
  have hframe := exec_frame (.wrCtrl wdata) ((step_host h.issued).symm.trans hstep)
  rw [Frame] at hframe
  rw [hframe]
  exact ⟨rfl, rfl⟩

/-- R81, R96: the bytes `PAD` reads are those of the written message, and those a step reads are in the padded buffer,
so no core step of a computation draws. -/
theorem Running.exec_uop_unread (h : Running s₀ message left s) (he : exec (decodeUop s.uop) s = .next t) :
    Unread s t := by
  cases h.stage with
  | pad uop size dig steps =>
    rw [uop] at he
    have hdraws := exec_pad_draws he fun i hi => by rw [h.written i (size ▸ hi)]; rfl
    cases he
    exact ⟨rfl, hdraws⟩
  | entry b uop block steps =>
    rw [uop] at he
    cases he
    exact ⟨rfl, rfl⟩
  | step b j uop block work steps =>
    rw [uop, decodeUop_step, exec_stepPseudo, compressStep_eq, block.msgWord] at he
    cases he
    exact ⟨rfl, rfl⟩
  | fold b uop block work steps =>
    rw [uop] at he
    have hframe := exec_frame .fold he
    rw [Frame] at hframe
    rw [hframe]
    exact ⟨rfl, rfl⟩
  | final uop dig steps =>
    rw [uop] at he
    cases he
    exact ⟨rfl, rfl⟩

/-- With no turn pending, `n` steps take a computation `n` places further. -/
theorem Running.run_alone (n : Nat) : ∀ s, Running s₀ message (left + n) s → s.pending = [] →
    ∃ t, Host.Core.run Sys2Proof.core n s = .next t ∧ Running s₀ message left t ∧ t.pending = [] ∧ Unread s t := by
  induction n with
  | zero => exact fun s h hp => ⟨s, run_zero s, h, hp, rfl, rfl⟩
  | succ n ih =>
    intro s h hp
    obtain ⟨t, he, ht⟩ := Running.exec_uop (left := left + n) h
    obtain ⟨u, hrun, hu, hpu, hunread⟩ := ih t ht ((exec_pending he).trans hp)
    have hstep := (step_core_alone h.noFault hp).trans he
    exact ⟨u, (run_succ n hstep).trans hrun, hu, hpu, (h.exec_uop_unread he).trans hunread⟩

/-- Settles O45: START, the core steps up to `FINAL`, and `FINAL`. -/
theorem acceptedStartComputesMd5 : Obligations.AcceptedStartComputesMd5 := by
  intro s message wdata hready
  obtain ⟨s₀, hstart, hrunning, hp₀, -, hmsg, hlen, hparams⟩ := hready.step_start
  rw [← Nat.zero_add (66 * _ + 1)] at hrunning
  obtain ⟨u, hrun, hu, hpu, hunread⟩ := Running.run_alone _ s₀ hrunning hp₀
  obtain ⟨t, he, ht⟩ := hu.exec_final
  obtain ⟨hrsp, hdraws⟩ := ((hready.start_unread hstart).trans hunread).trans (hu.exec_uop_unread he)
  refine ⟨t, ?run, hparams ▸ ht.digest, ht.done, ht.lenErr, ht.uop, ht.noFault, ht.msg.trans hmsg,
    ht.msgLen.trans hlen, hrsp, hdraws⟩
  have hsteps : 1 + (2 + 66 * ((message.length + 8) / 64 + 1)) = 66 * blockCount message.length + 1 + 1 + 1 := by
    rw [blockCount_eq]; omega
  have hfinal := (step_core_alone hu.noFault hpu).trans he
  rw [hsteps]
  exact (run_succ _ hstart).trans ((run_add _ 1 hrun).trans (run_succ 0 hfinal))

end Sys2Proof.Machine
end

section
/-! The host interface (45_host_interface.md): what each transaction answers in every state (R142..R157), what all of
them leave, and the message window as the host writes it and reads it back. -/

namespace Sys2Proof.Machine

variable {s t : State}

/-! ### What every transaction leaves (R26, R141) -/

/-- R141: what a host transaction may change. -/
theorem exec_host_frame {h : BitVec 31} {v : Word} (he : exec (decodeHost h v) s = .next t) :
    t = { s with uop := t.uop, size := t.size, obs := t.obs, dig := t.dig, obsEn := t.obsEn, done := t.done,
                 lenErr := t.lenErr, msgLen := t.msgLen, digest := t.digest, msg := t.msg, draws := t.draws,
                 rsp := t.rsp } := by
  obtain rfl | ⟨r, d, rfl⟩ | ⟨-, rfl⟩ | ⟨-, rfl⟩ | ⟨-, w, -, rfl⟩ := exec_host_cases h v he
  case inr.inr.inr.inl =>
    have hframe := writeCtrl_frame s v
    rw [Frame] at hframe
    rw [hframe]
  all_goals rfl

/-- R70: the bit `we` of a header. -/
theorem hostHeader_getLsbD_we (we : BitVec 1) (wa : BitVec 30) : (hostHeader we wa).getLsbD 30 = we.getLsbD 0 := by
  rw [hostHeader, BitVec.getLsbD_append, if_neg (by decide)]

/-- R70, R141: a word is returned to the host by the transactions with `we = 0` alone. -/
theorem exec_rsp_iff {i : Instr} {h : BitVec 31} {d : Word} (hword : encode i = .host h d)
    (he : exec i s = .next t) : t.rsp = s.rsp ↔ h.getLsbD 30 = true := by
  have hframe := exec_frame i he
  cases i <;> cases hword <;> rw [hostHeader_getLsbD_we]
  case wrCtrl | wrStatus | wrMsgLen | wrCap | wrDigest | wrMsg | wrRsvd =>
    rw [Frame] at hframe
    exact iff_of_true (by rw [hframe]) rfl
  case rdMsg w =>
    refine iff_of_false ?_ (by decide)
    cases he
    split <;> simp
  case rdCtrl | rdStatus | rdMsgLen | rdCap | rdDigest | rdRsvd =>
    refine iff_of_false ?_ (by decide)
    cases he
    simp

/-- Settles O16: the elements kept are those no host transaction's frame names, and the header of the decoded
transaction has `we = 0` exactly for the reads. -/
theorem hostTransactionsAlwaysComplete : Obligations.HostTransactionsAlwaysComplete := by
  intro h v s
  obtain ⟨t, he⟩ := exec_next (decodeHost h v) s
  have hframe := exec_host_frame he
  obtain ⟨hword, -⟩ := encodeOfDecodeIsWord.2 h v
  have hrsp := exec_rsp_iff hword he
  refine ⟨t, he, ?_⟩
  rw [hframe]
  exact ⟨rfl, rfl, rfl, rfl, rfl, rfl, rfl, rfl, hrsp⟩

/-! ### Words in a byte memory (R8, R47, R49) -/

/-- The word written is held. -/
theorem holdsWord_writeBytes (m : Memory) (a : Nat) (w : Word) : HoldsWord (m.writeBytes a (bytesLE w)) a w := by
  intro i hi
  rw [Memory.read_writeBytes_inside m (bytesLE w) a i (by rwa [bytesLE_length]), bytesLE_getElem w i hi]

/-- A held word is held after a write of a word beside it. -/
theorem HoldsWord.writeBytes {m : Memory} {a b : Nat} {v : Word} (h : HoldsWord m a v) (w : Word)
    (hdisj : a + 4 ≤ b ∨ b + 4 ≤ a) : HoldsWord (m.writeBytes b (bytesLE w)) a v := by
  intro i hi
  rw [Memory.read_writeBytes_outside _ _ _ (by rw [bytesLE_length]; omega)]
  exact h i hi

/-- R47: in a word read, each byte that holds a value is in its lane, whatever is drawn for the others. -/
theorem readWord_lane {m : Memory} {a i : Nat} {x : Byte} (d : Nat) (hi : i < 4) (hx : m.read? (a + i) = some x) :
    (readWord m d a).1.extractLsb' (8 * i) 8 = x := by
  have hbyte (d : Nat) : (readByte m d (a + i)).1 = x := congrArg Prod.fst (readByte_listed d hx)
  interval_cases i <;> simpa [readWord, le32_byte] using hbyte _

/-! ### The message window (R154, R155) -/

section Window

variable {w : BitVec 29}

theorem exec_wrMsg_beyond (v : Word) (hw : msgWords s.params ≤ w.toNat) : exec (.wrMsg w v) s = .next s :=
  congrArg _ (if_pos hw)

theorem exec_wrMsg_busy (v : Word) (hb : s.busy = true) : exec (.wrMsg w v) s = .next s :=
  congrArg _ ((congrArg _ (if_pos hb)).trans (ite_self s))

theorem exec_wrMsg_idle (v : Word) (hw : w.toNat < msgWords s.params) (hb : s.busy = false) :
    exec (.wrMsg w v) s = .next (s.writeMsgWord w v) :=
  congrArg _ ((if_neg (Nat.not_le.2 hw)).trans (if_neg (by rw [hb]; decide)))

theorem exec_rdMsg_beyond (hw : msgWords s.params ≤ w.toNat) : exec (.rdMsg w) s = .next (s.respond 0) :=
  congrArg _ (if_neg (Nat.not_lt.2 hw))

theorem exec_rdMsg_window (hw : w.toNat < msgWords s.params) : exec (.rdMsg w) s = .next (s.readMsgWord w) :=
  congrArg _ (if_pos hw)

/-- R154: a held word is returned, and nothing is drawn. -/
theorem exec_rdMsg_holds {v : Word} (hw : w.toNat < msgWords s.params) (h : HoldsWord s.msg (msgByteOffset w) v) :
    exec (.rdMsg w) s = .next (s.respond v) := by
  rw [exec_rdMsg_window hw, State.readMsgWord, readWord_holds _ h]

theorem writeMsgWord_holds (s : State) (w : BitVec 29) (v : Word) :
    HoldsWord (s.writeMsgWord w v).msg (msgByteOffset w) v :=
  holdsWord_writeBytes _ _ _

/-- R47: the words of the window are disjoint. -/
theorem msgByteOffset_disjoint {w' : BitVec 29} (hne : w' ≠ w) :
    msgByteOffset w' + 4 ≤ msgByteOffset w ∨ msgByteOffset w + 4 ≤ msgByteOffset w' := by
  have hne : w'.toNat ≠ w.toNat := fun h => hne (BitVec.eq_of_toNat_eq h)
  unfold msgByteOffset
  omega

end Window

/-- Settles O25: beyond the window, while busy, and the stored word with its frame. -/
theorem wrMsgStoresLittleEndianBytes : Obligations.WrMsgStoresLittleEndianBytes := by
  intro s w v
  refine ⟨exec_wrMsg_beyond v, exec_wrMsg_busy v, fun hw hb => ?stored⟩
  exact ⟨s.writeMsgWord w v, exec_wrMsg_idle v hw hb, rfl, rfl, writeMsgWord_holds s w v,
    fun a ha => Memory.read_writeBytes_outside _ _ _ ha⟩

/-- Settles O26: beyond the window, a held word, and a word of which some byte may never have been written. -/
theorem rdMsgReturnsTheWrittenWord : Obligations.RdMsgReturnsTheWrittenWord := by
  intro s w
  refine ⟨exec_rdMsg_beyond, fun hw => ⟨fun v hv => exec_rdMsg_holds hw hv, ?lanes⟩⟩
  exact ⟨_, _, exec_rdMsg_window hw, fun i hi x hx => readWord_lane s.draws hi hx⟩

/-- Settles O27: the word written is held, and every other word lies beside it. -/
theorem msgReadAfterWrite : Obligations.MsgReadAfterWrite := by
  intro s t w w' v hw hb he
  cases (exec_wrMsg_idle v hw hb).symm.trans he
  exact ⟨exec_rdMsg_holds hw (writeMsgWord_holds s w v),
    fun hne _ hheld => hheld.writeBytes v (msgByteOffset_disjoint hne)⟩

/-! ### The status bits and the control word (R30, R145, R146) -/

/-- R30, R63: `BUSY` by the sequencer's word as a number. -/
theorem busy_iff (s : State) : s.busy = true ↔ 64 ≤ s.uop.toNat := by
  have hlt := s.uop.isLt
  simp only [State.busy, decide_eq_true_iff, ne_eq, ← BitVec.toNat_inj, BitVec.extractLsb'_toNat,
    Nat.shiftRight_eq_div_pow, BitVec.ofNat_eq_ofNat, BitVec.toNat_ofNat]
  omega

theorem busy_toNat (s : State) : s.busy.toNat = if s.uop.toNat / 64 = 0 then 0 else 1 := by
  have hiff := busy_iff s
  cases hb : s.busy <;> rw [hb] at hiff
  case false => exact (if_pos (by simp at hiff; omega)).symm
  case true => exact (if_neg (by simp at hiff; omega)).symm

theorem ctrlWord_eq (s : State) : s.ctrlWord = if s.obsEn then 2 else 0 := by
  unfold State.ctrlWord
  cases s.obsEn <;> rfl

/-- R146: three bits beside one another are the digits of a number. -/
theorem statusBits_toNat : ∀ lenErr done busy : Bool,
    ((bitWord lenErr <<< 2) ||| (bitWord done <<< 1) ||| bitWord busy).toNat =
      4 * lenErr.toNat + 2 * done.toNat + busy.toNat := by
  decide

theorem statusWord_toNat (s : State) :
    s.statusWord.toNat = 4 * s.lenErr.toNat + 2 * s.done.toNat + (if s.uop.toNat / 64 = 0 then 0 else 1) := by
  rw [← busy_toNat]
  exact statusBits_toNat ..

/-- Settles O18: the word returned is `ctrlWord`. -/
theorem rdCtrlReturnsObsEn : Obligations.RdCtrlReturnsObsEn := by
  intro s
  rw [← ctrlWord_eq]
  rfl

/-- Settles O19: the word returned is `statusWord`. -/
theorem rdStatusReturnsStatusBits : Obligations.RdStatusReturnsStatusBits :=
  fun s => ⟨s.statusWord, rfl, statusWord_toNat s⟩

/-! ### The registers (R147..R153) and the reserved addresses (R156, R157) -/

/-- Settles O20: the meaning of each of these rows is to answer the state it is given. -/
theorem readOnlyWritesAreIgnored : Obligations.ReadOnlyWritesAreIgnored :=
  fun _ _ _ _ => ⟨rfl, rfl, rfl, rfl⟩

/-- R5, R32: `MAX_MSG_BYTES` is at most `2^31`, so `CAP` holds it. -/
theorem cap_toNat (p : Params) : (BitVec.ofNat 32 p.maxMsgBytes.val).toNat = p.maxMsgBytes.val := by
  have hlt := p.maxMsgBytes.isLt
  rw [BitVec.toNat_ofNat]
  omega

/-- Settles O21: each is the read of its row, and `CAP` holds the capacity. -/
theorem lengthCapacityAndReservedReads : Obligations.LengthCapacityAndReservedReads :=
  fun s _ => ⟨rfl, rfl, _, rfl, cap_toNat s.params⟩

theorem quad_word_eq (q : Quad) (k : BitVec 2) : q.word k =
    if k.toNat = 0 then q.a else if k.toNat = 1 then q.b else if k.toNat = 2 then q.c else q.d := by
  simp only [Quad.word, ← BitVec.toNat_inj]
  rfl

theorem quad_zero_word (k : BitVec 2) : Quad.zero.word k = 0 := by
  simp only [Quad.word, Quad.zero, ite_self]

/-- R152, R185: in a state of a run the digest registers are the finished digest with `DONE`, and 0 without. -/
theorem RunInv.digest_eq (h : RunInv s) : s.digest = if s.done then s.dig else Quad.zero := by
  split
  case isTrue hdone => exact (h.digestDone hdone).1
  case isFalse hdone => exact h.digestZero (Bool.eq_false_iff.2 hdone)

/-- Settles O22: the word of the digest registers, and with the invariant of the digest or of 0. -/
theorem rdDigestReturnsDigestWord : Obligations.RdDigestReturnsDigestWord := by
  intro s k
  refine ⟨s.digest.word k, rfl, quad_word_eq .., fun h => ?inv⟩
  rw [h.digest_eq, apply_ite (Quad.word · k), quad_word_eq s.dig, quad_zero_word]

/-- Settles O23, by `BUSY`. -/
theorem wrMsgLenStoresWhileIdle : Obligations.WrMsgLenStoresWhileIdle :=
  fun _ _ => ⟨fun hb => congrArg _ (if_pos hb), fun hb => congrArg _ (if_neg (Bool.eq_false_iff.1 hb))⟩

/-! ### `WR_CTRL` (R142..R144) -/

/-- R142: the bit START of the data word, by the word as a number. -/
theorem toNat_even_iff (v : Word) : v.toNat % 2 = 0 ↔ ¬ v.getLsbD 0 = true := by
  rw [BitVec.getLsbD, Nat.testBit_zero, decide_eq_true_iff]
  omega

/-- R142: without START an idle `WR_CTRL` writes `OBS_EN` alone. -/
theorem writeCtrl_enables {v : Word} (hstart : ¬ v.getLsbD 0 = true) :
    s.writeCtrl v = { s with obsEn := v.getLsbD 1 } := by
  rw [State.writeCtrl, if_neg hstart]

/-- Settles O24: ignored while busy, OBS_EN alone without START, and START by the length. -/
theorem wrCtrlStartsRejectsOrEnables : Obligations.WrCtrlStartsRejectsOrEnables := by
  intro s v
  refine congrArg Host.Outcome.next (if_congr (busy_iff s) rfl ?idle)
  by_cases hstart : v.getLsbD 0 = true
  · rw [if_neg fun heven => (toNat_even_iff v).1 heven hstart]
    by_cases hfits : s.msgLen.toNat ≤ s.params.maxMsgBytes.val
    · rw [if_pos hfits, writeCtrl_accepts hstart hfits]
      rfl
    · rw [if_neg hfits, writeCtrl_rejects hstart hfits]
      rfl
  · rw [if_pos ((toNat_even_iff v).2 hstart), writeCtrl_enables hstart]

end Sys2Proof.Machine
end

section
/-! The exception (60_exceptions.md): the words that raise the model fault (R69, R166), and what a state that records it
answers to each turn. -/

namespace Sys2Proof.Machine

variable {s : State} {f : Fault}

/-- R166: the meaning of a reserved word. -/
theorem exec_reservedUop_eq (u : BitVec 10) (s : State) :
    exec (.reservedUop u) s = .next { s with faultRec := some (.illegalUop u) } := rfl

/-- R69: reserved are the words with `op` in 6..15, and of the other rows but the STEP rows those with `j ≠ 0`. -/
theorem reservedWord_of_op_or_index {op : BitVec 4} {j : BitVec 6}
    (h : 6 ≤ op.toNat ∨ (op ∈ [0, 1, 2, 4, 5] ∧ j ≠ 0)) : reservedWord (uopWord op j) = true := by
  rw [reservedWord_uopWord, Bool.or_eq_true, Bool.and_eq_true]
  obtain hop | ⟨hop, hj⟩ := h
  · exact .inl (decide_eq_true hop)
  · have h3 : op ≠ 3 := by
      rintro rfl
      exact absurd hop (by decide)
    exact .inr ⟨decide_eq_true h3, decide_eq_true hj⟩

/-- R69, R166: the core's step with a reserved word in `uop` records the fault. -/
theorem step_reservedWord (hu : reservedWord s.uop = true) (ht : s.coreHasTurn) (hf : s.faultRec = none) :
    step s = .next { s with faultRec := some (.illegalUop s.uop), pending := s.pending.tail } := by
  rw [step_core ht hf, decodeUop_reserved s.uop hu, exec_reservedUop_eq]
  rfl

/-- R189: a state that records the fault is no end of a run. -/
theorem not_ended_of_faultRec (hf : s.faultRec = some f) : ¬ Ended s := by
  rintro ⟨-, hnone, -⟩
  exact Option.some_ne_none f (hf.symm.trans hnone)

/-- R141, R166: a host's turn completes and leaves the fault record. -/
theorem step_host_keeps_faultRec {h : BitVec 31} {wdata : Word} {rest : List Turn}
    (hp : s.pending = .host h wdata :: rest) : ∃ t, step s = .next t ∧ t.faultRec = s.faultRec := by
  obtain ⟨t, he, -, -, -, -, -, -, -, hfault, -⟩ := hostTransactionsAlwaysComplete h wdata s.dropTurn
  exact ⟨t, (step_host hp).trans he, hfault⟩

/-- Settles O13: the word decodes to its reserved row, whose meaning is the record; in the faulted state the core is
stopped, and a host transaction keeps the record. -/
theorem reservedWordRecordsIllegalUop : Obligations.ReservedWordRecordsIllegalUop := by
  refine ⟨fun s u => exec_reservedUop_eq u s, fun s op j hu hres ht hf => ?reserved, fun s f hf => ?faulted⟩
  case reserved => exact step_reservedWord (hu ▸ reservedWord_of_op_or_index hres) ht hf
  case faulted =>
    refine ⟨fun ht => step_core_faulted ht hf, not_ended_of_faultRec hf, fun h wdata rest hp => ?_⟩
    rw [← hf]
    exact step_host_keeps_faultRec hp

end Sys2Proof.Machine
end

section
/-! Reset and the end of a run (R180, R189), a computation before its last core step (R184, R185), and the boot and use
sequence (R182): the load of the message, the core's steps, and the reads. -/

namespace Sys2Proof.Machine

variable {s t s₀ : State} {message : List Byte} {left : Nat} {rest rest' : List Turn}

/-! ### Reset (R180) -/

/-- Settles O8: the reset state is what a reset turn before these turns leads to. -/
theorem resetSatisfiesInv : Obligations.ResetSatisfiesInv :=
  fun turns => .afterReset { State.reset with pending := turns }

/-- R180: whatever state a reset comes in, what it leaves has the values of the reset table. -/
theorem afterReset_hasResetValues (s : State) : HasResetValues s.afterReset where
  uop := rfl
  obsEn := rfl
  status := ⟨show decide ((0x000 : BitVec 10).extractLsb' 6 4 ≠ 0) = false by decide, rfl, rfl⟩
  msgLen := rfl
  digest := rfl
  obsch := rfl
  msg := fun _ => rfl
  pbuf := fun _ => rfl
  faultRec := rfl

/-- Settles O54: the reset state is the one a reset of itself leaves, and a reset turn leads to the state after reset. -/
theorem resetGivesTheSpecsValues : Obligations.ResetGivesTheSpecsValues := by
  refine ⟨⟨afterReset_hasResetValues State.reset, rfl⟩, fun s rest hp => ?turn⟩
  refine ⟨s.dropTurn.afterReset, step_reset hp, afterReset_hasResetValues _, rfl, ?pending⟩
  show s.pending.tail = rest
  rw [hp, List.tail_cons]

/-! ### The end of a run (R189) and a computation that has not ended -/

theorem Ended.coreHasTurn (h : Ended s) : s.coreHasTurn := by
  obtain ⟨-, -, hcore⟩ := h
  cases hp : s.pending with
  | nil => exact .inl hp
  | cons turn rest =>
    obtain rfl := hcore turn (hp ▸ List.mem_cons_self)
    exact .inr ⟨rest, hp⟩

/-- R189: the turns that are left do not matter, as long as they are the core's. -/
theorem Ended.dropTurn (h : Ended s) : Ended s.dropTurn := by
  obtain ⟨huop, hfault, hcore⟩ := h
  exact ⟨huop, hfault, fun turn hturn => hcore turn (List.mem_of_mem_tail hturn)⟩

/-- Settles O55: the turn is the core's, and it performs `HALT`. -/
theorem endedRunStaysEnded : Obligations.EndedRunStaysEnded := by
  intro s h
  refine ⟨s.dropTurn, ?step, rfl, h.dropTurn⟩
  have ⟨huop, hfault, _⟩ := h
  rw [step_core h.coreHasTurn hfault, huop]
  rfl

theorem not_ended_of_busy (hb : s.busy = true) : ¬ Ended s := by
  rintro ⟨huop, -, -⟩
  have hle := (busy_iff s).1 hb
  rw [huop] at hle
  exact absurd hle (by decide)

/-- Settles O17: a transaction completes, and a busy core is not disturbed by it. -/
theorem hostCannotDisturbAComputation : Obligations.HostCannotDisturbAComputation := by
  intro h v s hb
  obtain ⟨t, he⟩ := exec_next (decodeHost h v) s
  exact ⟨t, he, exec_host_busy hb he⟩

/-- Settles O48: START, and turns that leave the core at a place of the computation, where it is busy. -/
theorem computationIsBusyUntilItsLastStep : Obligations.ComputationIsBusyUntilItsLastStep := by
  intro s message wdata turns rest hready hreset hcount
  rw [← blockCount_eq] at hcount
  obtain ⟨s₀, hstart, hrunning₀, hp₀, -⟩ := hready.step_start
  have hle : turns.count .core ≤ 66 * blockCount message.length + 1 := by omega
  rw [← Nat.sub_add_cancel hle] at hrunning₀
  obtain ⟨t, hrun, ht, hpt⟩ := Running.run_turns turns hreset s₀ hrunning₀ hp₀
  refine ⟨t, ?run, hpt, ht.stage.busy, ht.done, ht.digest, not_ended_of_busy ht.stage.busy⟩
  rw [Nat.add_comm, run_succ _ hstart, hrun]

/-! ### The load of a message (R76, R182) -/

/-- R76: the first word of a message, bytes beyond it taken as 0. -/
def firstWord (bytes : List Byte) : Word :=
  le32 (bytes.getD 0 0) (bytes.getD 1 0) (bytes.getD 2 0) (bytes.getD 3 0)

theorem firstWord_byte {bytes : List Byte} {i : Nat} (hi : i < bytes.length) (h4 : i < 4) :
    (firstWord bytes).extractLsb' (8 * i) 8 = bytes[i] := by
  obtain ⟨h0, h1, h2, h3⟩ := le32_byte (bytes.getD 0 0) (bytes.getD 1 0) (bytes.getD 2 0) (bytes.getD 3 0)
  rw [← List.getD_eq_getElem bytes 0 hi]
  interval_cases i
  · exact h0
  · exact h1
  · exact h2
  · exact h3

/-- R76: as long as bytes are left, a load writes their first word and goes on with the bytes after it. -/
theorem loadWords_cons (w : Nat) {bytes : List Byte} (h : bytes ≠ []) :
    loadWords w bytes = wr (.msg (BitVec.ofNat 29 w)) (firstWord bytes) :: loadWords (w + 1) (bytes.drop 4) := by
  match bytes with
  | [] => exact absurd rfl h
  | [_] | [_, _] | [_, _, _] | _ :: _ :: _ :: _ :: _ => rfl

/-- R155: a transaction that writes a word of the window, of an idle core. -/
theorem step_wr_msg {w : BitVec 29} {v : Word} (hb : s.busy = false) (hw : w.toNat < msgWords s.params)
    (hp : s.pending = wr (.msg w) v :: rest) :
    step s = .next (State.writeMsgWord { s with pending := rest } w v) := by
  rw [step_host hp, dropTurn_of_cons hp]
  show exec (decodeHost (hostHeader 1 (msgAddress w)) v) _ = _
  rw [decodeHost_msg, if_neg (by decide)]
  exact exec_wrMsg_idle v hw hb

/-- R149: a transaction that writes `MSG_LEN`, of an idle core. -/
theorem step_wr_msgLen {v : Word} (hb : s.busy = false) (hp : s.pending = wr (.reg .msgLen) v :: rest) :
    step s = .next { s with msgLen := v, pending := rest } := by
  obtain ⟨-, hidle⟩ := wrMsgLenStoresWhileIdle { s with pending := rest } v
  rw [step_host hp, dropTurn_of_cons hp]
  exact hidle hb

/-- R76: what the load of `bytes` from word `w` on leaves: the bytes in the window, and everything below them and
outside the window as it was. -/
structure Loaded (s : State) (w : Nat) (bytes : List Byte) (rest : List Turn) (t : State) : Prop where
  frame : t = { s with msg := t.msg, pending := rest }
  bytes : ∀ i (h : i < bytes.length), t.msg.read? (4 * w + i) = some bytes[i]
  below : ∀ a < 4 * w, t.msg.read? a = s.msg.read? a

/-- R76: the first word written and the rest of the message loaded after it are the message loaded. -/
theorem Loaded.of_rest {w : Nat} {bytes : List Byte} {word : BitVec 29} (hword : word.toNat = w)
    (h : Loaded (State.writeMsgWord { s with pending := rest' } word (firstWord bytes)) (w + 1) (bytes.drop 4) rest t) :
    Loaded s w bytes rest t where
  frame := h.frame
  bytes := fun i hi => by
    by_cases h4 : i < 4
    · rw [h.below _ (by omega), ← hword, ← firstWord_byte hi h4]
      exact writeMsgWord_holds _ word (firstWord bytes) i h4
    · have hread := h.bytes (i - 4) (by rw [List.length_drop]; omega)
      rw [List.getElem_drop] at hread
      rw [show 4 * w + i = 4 * (w + 1) + (i - 4) by omega, hread]
      simp only [show 4 + (i - 4) = i by omega]
  below := fun a ha =>
    (h.below a (by omega)).trans (Memory.read_writeBytes_outside _ _ _ (.inl (by rw [msgByteOffset, hword]; exact ha)))

/-- R76, R155: the words of a message that fits, written to the window of an idle core. -/
theorem run_loadWords (w : Nat) (bytes : List Byte) (s : State) (hb : s.busy = false)
    (hfits : bytes.length ≤ s.params.maxMsgBytes.val - 4 * w) (hp : s.pending = loadWords w bytes ++ rest) :
    ∃ t, Host.Core.run Sys2Proof.core (loadWords w bytes).length s = .next t ∧ Loaded s w bytes rest t := by
  by_cases hne : bytes = []
  case pos =>
    subst hne
    rw [← show s.pending = rest from hp]
    exact ⟨s, run_zero s, rfl, fun i hi => absurd hi (Nat.not_lt_zero i), fun _ _ => rfl⟩
  case neg =>
    have hpos := List.length_pos_iff.2 hne
    have hmax := s.params.maxMsgBytes.isLt
    have hword : (BitVec.ofNat 29 w).toNat = w := by rw [BitVec.toNat_ofNat]; omega
    have hfits' : (bytes.drop 4).length ≤ s.params.maxMsgBytes.val - 4 * (w + 1) := by rw [List.length_drop]; omega
    rw [loadWords_cons w hne] at hp ⊢
    have hstep := step_wr_msg hb (by rw [hword, msgWords]; omega) hp
    obtain ⟨t, hrun, ht⟩ := run_loadWords (w + 1) (bytes.drop 4)
      (State.writeMsgWord { s with pending := loadWords (w + 1) (bytes.drop 4) ++ rest } (BitVec.ofNat 29 w)
        (firstWord bytes)) hb hfits' rfl
    exact ⟨t, (run_succ _ hstep).trans hrun, ht.of_rest hword⟩
termination_by bytes.length

/-- R76 `LOADMSG` of a message that fits, to an idle core. -/
theorem run_loadMsgTurns (hb : s.busy = false) (hfits : message.length ≤ s.params.maxMsgBytes.val)
    (hp : s.pending = loadMsgTurns message ++ rest) :
    ∃ t, Host.Core.run Sys2Proof.core (loadMsgTurns message).length s = .next t ∧
      t = { s with msg := t.msg, msgLen := BitVec.ofNat 32 message.length, pending := rest } ∧
      HoldsBytes t.msg message := by
  rw [loadMsgTurns, List.append_assoc] at hp
  obtain ⟨u, hrun, hframe, hbytes, -⟩ := run_loadWords 0 message s hb hfits hp
  simp only [Nat.mul_zero, Nat.zero_add] at hbytes
  have hstep := step_wr_msgLen (s := u) (by rw [hframe]; exact hb) (by rw [hframe]; rfl)
  refine ⟨{ u with msgLen := BitVec.ofNat 32 message.length, pending := rest }, ?run, ?frame, hbytes⟩
  case run =>
    rw [loadMsgTurns, List.length_append, run_add _ _ hrun]
    exact run_succ 0 hstep
  case frame =>
    exact congrArg (fun x : State => { x with msgLen := BitVec.ofNat 32 message.length, pending := rest }) hframe

/-! ### The core's steps (R183) -/

/-- A turn of the core in a computation draws nothing and reads nothing to the host. -/
theorem Running.core_turn_unread (h : Running s₀ message left s) (hp : s.pending = .core :: rest)
    (hstep : step s = .next t) : Unread s t := by
  rw [step_core (.inr ⟨rest, hp⟩) h.noFault] at hstep
  obtain ⟨hrsp, hdraws⟩ := h.dropTurn.exec_uop_unread hstep
  exact ⟨hrsp, hdraws⟩

/-- `n` turns of the core take a computation `n` places further, whatever turns follow. -/
theorem Running.run_core_turns (n : Nat) : ∀ s, Running s₀ message (left + n) s →
    s.pending = List.replicate n .core ++ rest →
    ∃ t, Host.Core.run Sys2Proof.core n s = .next t ∧ Running s₀ message left t ∧ t.pending = rest ∧ Unread s t := by
  induction n with
  | zero => exact fun s h hp => ⟨s, run_zero s, h, hp, rfl, rfl⟩
  | succ n ih =>
    intro s h hp
    obtain ⟨t, hstep, ht, hpt⟩ := Running.core_turn (left := left + n) h hp
    obtain ⟨u, hrun, hu, hpu, hunread⟩ := ih t ht hpt
    exact ⟨u, (run_succ n hstep).trans hrun, hu, hpu, (h.core_turn_unread hp hstep).trans hunread⟩

/-- R183: START and the core's steps finish the computation, whatever turns follow, and the host has read nothing. -/
theorem StartReady.run_computation {wdata : Word}
    (h : StartReady s message wdata (List.replicate (computationSteps message.length) .core ++ rest)) :
    ∃ t, Host.Core.run Sys2Proof.core (1 + computationSteps message.length) s = .next t ∧
      Finished { s with obsEn := wdata.getLsbD 1 } message t ∧ t.pending = rest ∧ Unread s t := by
  have hsteps : computationSteps message.length = (66 * blockCount message.length + 1) + 1 := by
    rw [computationSteps]; omega
  obtain ⟨s₀, hstart, hrunning₀, hp₀, hobs, hmsg, hlen, hparams⟩ := h.step_start
  rw [hsteps, List.replicate_add, List.append_assoc] at hp₀
  rw [← Nat.zero_add (66 * _ + 1)] at hrunning₀
  obtain ⟨u, hrun, hu, hpu, hunread⟩ := Running.run_core_turns _ s₀ hrunning₀ hp₀
  obtain ⟨t, hfinal, ht, hpt⟩ := hu.last_turn hpu
  refine ⟨t, ?run, ?finished, hpt,
    ((h.start_unread hstart).trans hunread).trans (hu.core_turn_unread hpu hfinal)⟩
  case run =>
    rw [Nat.add_comm, run_succ _ hstart, hsteps, run_add _ _ hrun]
    exact run_succ 0 hfinal
  case finished =>
    exact { ht with digest := hparams ▸ ht.digest, obsEn := ht.obsEn.trans hobs, msg := ht.msg.trans hmsg,
                    msgLen := ht.msgLen.trans hlen }

/-! ### The reads (R145, R146, R148, R150, R152) -/

/-- The word a register reads as. -/
def State.readReg (s : State) : HostReg → Word
  | .ctrl => s.ctrlWord
  | .status => s.statusWord
  | .msgLen => s.msgLen
  | .cap => BitVec.ofNat 32 s.params.maxMsgBytes.val
  | .digest k => s.digest.word k

/-- What a register reads as depends on neither the turns to come nor what the host has read. -/
theorem readReg_respond (s : State) (p : List Turn) (v : Word) :
    (State.respond { s with pending := p } v).readReg = s.readReg :=
  funext fun reg => by cases reg <;> rfl

theorem exec_rd_reg (r : HostReg) (s : State) :
    exec (decodeHost (hostHeader 0 r.wordAddress) 0) s = .next (s.respond (s.readReg r)) := by
  cases r with
  | ctrl => exact congrArg (exec · s) (decodeOfEncodeIsInstr .rdCtrl rfl)
  | status => exact congrArg (exec · s) (decodeOfEncodeIsInstr .rdStatus rfl)
  | msgLen => exact congrArg (exec · s) (decodeOfEncodeIsInstr .rdMsgLen rfl)
  | cap => exact congrArg (exec · s) (decodeOfEncodeIsInstr .rdCap rfl)
  | digest k => exact congrArg (exec · s) (decodeOfEncodeIsInstr (.rdDigest k) rfl)

/-- Reads of registers return them in order and change nothing else. -/
theorem run_reads (regs : List HostReg) : ∀ s : State, s.pending = regs.map (fun r => rd (.reg r)) ++ rest →
    Host.Core.run Sys2Proof.core regs.length s =
      .next { s with rsp := s.rsp ++ regs.map s.readReg, pending := rest } := by
  induction regs with
  | nil =>
    intro s hp
    rw [← show s.pending = rest from hp, List.map_nil, List.append_nil]
    rfl
  | cons r regs ih =>
    intro s hp
    have hstep := (step_host hp).trans (exec_rd_reg r s.dropTurn)
    rw [dropTurn_of_cons hp] at hstep
    rw [List.length_cons, run_succ _ hstep, ih _ rfl, readReg_respond, respond_rsp, List.append_assoc]
    rfl

/-! ### The boot and use sequence (R182) -/

/-- R76, R182: the registers the sequence reads, for one poll and the digest. -/
def bootReads : List HostReg := [.status, .digest 0, .digest 1, .digest 2, .digest 3]

theorem poll_append_readDigest : waitTurns 1 ++ readDigestTurns = bootReads.map fun r => rd (.reg r) := rfl

/-- R76: START, with the observer on or off, is one write of `CTRL` with the bit START. -/
theorem startTurns_eq (observe : Bool) : ∃ v : Word, v.getLsbD 0 = true ∧
    (if observe then startObsTurns else startTurns) = [.host 0x40000000 v] := by
  cases observe with
  | false => exact ⟨0x1, rfl, rfl⟩
  | true => exact ⟨0x3, rfl, rfl⟩

/-- R182: the sequence is the load, START, the core's steps and the reads. -/
theorem digestTurns_eq (message : List Byte) (observe : Bool) : ∃ v : Word, v.getLsbD 0 = true ∧
    digestTurns message observe = loadMsgTurns message ++ (.host 0x40000000 v ::
      (List.replicate (computationSteps message.length) .core ++ bootReads.map fun r => rd (.reg r))) := by
  obtain ⟨v, hv, hstart⟩ := startTurns_eq observe
  refine ⟨v, hv, ?_⟩
  rw [digestTurns, hstart, ← poll_append_readDigest]
  simp only [List.append_assoc, List.cons_append, List.nil_append]

/-- R30, R146: after a computation STATUS reads `DONE` alone. -/
theorem Finished.statusWord_eq (h : Finished s₀ message s) : s.statusWord = 2 := by
  apply BitVec.eq_of_toNat_eq
  rw [statusWord_toNat, h.lenErr, h.done, h.uop]
  rfl

/-- R146, R152: what the poll and the digest read as after a computation. -/
theorem Finished.map_readReg_bootReads (h : Finished s₀ message s) : bootReads.map s.readReg =
    let d := md5 s₀.params.lenHiMode message
    [2, d.a, d.b, d.c, d.d] := by
  rw [← h.digest, ← h.statusWord_eq]
  rfl

/-- Settles O47: the load, START with the core's steps, and the reads of a finished computation. -/
theorem bootSequenceReturnsTheDigest : Obligations.BootSequenceReturnsTheDigest := by
  intro s message observe hb hf hfits hp
  have hmax := s.params.maxMsgBytes.isLt
  obtain ⟨v, hv, hturns⟩ := digestTurns_eq message observe
  obtain ⟨u, hload, hframe, hbytes⟩ := run_loadMsgTurns hb hfits (hp.trans hturns)
  have hready : StartReady u message v (_ ++ bootReads.map fun r => rd (.reg r)) :=
    { idle := by rw [hframe]; exact hb
      noFault := by rw [hframe]; exact hf
      issued := by rw [hframe]
      start := hv
      length := by rw [hframe, BitVec.toNat_ofNat]; omega
      fits := by rw [hframe]; exact hfits
      written := hbytes }
  obtain ⟨f, hcompute, hfinished, hpf, hunread⟩ := hready.run_computation
  have hreads := run_reads (rest := []) bootReads f (hpf.trans (List.append_nil _).symm)
  refine ⟨{ f with rsp := f.rsp ++ bootReads.map f.readReg, pending := [] }, ?run,
    ⟨hfinished.uop, hfinished.noFault, List.forall_mem_nil _⟩, ?rsp, hfinished.msg ▸ hbytes⟩
  case run =>
    have hlength : (digestTurns message observe).length = (loadMsgTurns message).length +
        (1 + computationSteps message.length + bootReads.length) := by
      rw [hturns, List.length_append, List.length_cons, List.length_append, List.length_replicate, List.length_map]
      omega
    rw [hlength, run_add _ _ hload, run_add _ _ hcompute, hreads]
  case rsp =>
    have hparams : u.params = s.params := by rw [hframe]
    have hrsp : f.rsp = s.rsp := hunread.rsp.trans (by rw [hframe])
    show f.rsp ++ bootReads.map f.readReg = _
    rw [hrsp, hfinished.map_readReg_bootReads, hparams]

end Sys2Proof.Machine
end
